-- ==== Sys2Proof/Word.lean ====
section
/-! DEFINITION. The bit-vector types of the block (00_scope.md rules R4 and R5). -/

namespace Sys2Proof

/-- Divisor, dividend, quotient and magic constant: `W = 32` bits (R4). -/
abbrev Word := BitVec 32

/-- A command word, 80 bits (30_encoding.md rule R40). -/
abbrev CmdWord := BitVec 80

/-- A descriptor, 40 bits (30_encoding.md rule R43). -/
abbrev DescWord := BitVec 40

/-- A response word, 48 bits (30_encoding.md rule R47). -/
abbrev RespWord := BitVec 48

/-- A U_MAGIC working register, `WD = 33` bits (R4). -/
abbrev Reg33 := BitVec 33

/-- `INT_MIN`, signed reading `-2^31` (R5). -/
abbrev intMin : Word := 0x80000000#32

/-- `INT_MAX`, signed reading `2^31 - 1` (R5). -/
abbrev intMax : Word := 0x7FFFFFFF#32

end Sys2Proof
end

