-- ==== Sys2Proof/Config.lean ====
section
/-! DEFINITION. The implementation parameters of 00_scope.md rule R4. The widths are the widths of the types of
Word.lean and Machine/State.lean (`W = 32`, `WD = 33`, `WP = 6`, `WSH = 5`). `OVF_POLICY = wrap_and_flag` is
`shiftOverflow` and `shiftQuotient` (92_eei_decisions.md D9); `FAULT_POLICY = halt_until_reset` is `raiseFault` and
`stepEvent` (D8). `ARB`, the order in which the commands of several hosts reach the block, is not a constant: it is the
order of the list `State.inbox` (D22; notes/assumptions/1.md). The spec leaves no value of the block free, so no opaque
constant stands here. -/

namespace Sys2Proof.Config

/-- The greatest number of iterations a derivation takes (42_magic_derivation.md rule R98). -/
abbrev maxIterations : Nat := 31

end Sys2Proof.Config
end

