-- ==== Sys2Proof/Syntax.lean ====
section
/-! DEFINITION. What a command word says: its fields, a descriptor's fields, and the three instructions of
spec/opcode_table.json. -/

namespace Sys2Proof

/-- The fields of a descriptor (30_encoding.md rule R43), `TAG` kept as its two bits because two of its values are
reserved. -/
structure Descriptor where
  tag : BitVec 2
  neg : Bool
  sh  : BitVec 5
  mc  : Word
deriving DecidableEq, Repr

/-- The fields of a command word of format `C` (30_encoding.md rule R41). -/
structure CommandFields where
  opc     : BitVec 8
  desc    : Descriptor
  operand : Word
deriving DecidableEq, Repr

/-- The instructions, one constructor per row of spec/opcode_table.json. -/
inductive Instr where
  /-- `MKDIV d`: build the descriptor of the divisor `d` (40_dispatcher.md rule R60). -/
  | mkdiv (d : Word)
  /-- `DIV.S`: divide `n` by the SHIFT descriptor with fields `NEG` and `SH` (41_shift_strategy.md rule R80). -/
  | divS (neg : Bool) (sh : BitVec 5) (n : Word)
  /-- `DIV.M`: divide `n` by the MAGIC descriptor with fields `NEG`, `SH`, `MC` (43_general_strategy.md rule R110). -/
  | divM (neg : Bool) (sh : BitVec 5) (mc : Word) (n : Word)
deriving DecidableEq, Repr

end Sys2Proof
end

