-- ==== Sys2Proof/WellFormed.lean ====
section
/-! DEFINITION. Which command fields, descriptors and instructions are well-formed (30_encoding.md rules R43, R44,
R50). The four checks on command fields are the four reasons for which R50 turns a word away. An `Instr` cannot carry
an ill-formed value (its operands are exactly the free bits of its encoding), so its check is the check of the
descriptor it stands for. -/

namespace Sys2Proof

/-- `TAG` of the SHIFT variant (R43). -/
abbrev tagShift : BitVec 2 := 0b01#2

/-- `TAG` of the MAGIC variant (R43). -/
abbrev tagMagic : BitVec 2 := 0b10#2

/-- Operation code of `MKDIV` (R42). -/
abbrev opcMkdiv : BitVec 8 := 0x01#8

/-- Operation code of `DIV` (R42). -/
abbrev opcDiv : BitVec 8 := 0x02#8

/-- The all-zero descriptor field that `MKDIV` must carry (R41). It is no descriptor: its tag is reserved (R43). -/
abbrev Descriptor.zero : Descriptor := ⟨0b00#2, false, 0#5, 0#32⟩

/-- The tag names a variant (R43). -/
def Descriptor.tagKnown (D : Descriptor) : Bool := D.tag = tagShift || D.tag = tagMagic

/-- A SHIFT descriptor has no multiplier (R43). -/
def Descriptor.shiftMcZero (D : Descriptor) : Bool := D.tag ≠ tagShift || D.mc = 0#32

/-- A well-formed descriptor: `TAG = 10`, or `TAG = 01` and `MC = 0` (R44). -/
def Descriptor.wellFormed (D : Descriptor) : Bool := D.tagKnown && D.shiftMcZero

/-- The operation code names an operation (R42, R50 line 1). -/
def CommandFields.opcKnown (f : CommandFields) : Bool := f.opc = opcMkdiv || f.opc = opcDiv

/-- The reserved bits of `MKDIV` are zero (R50 line 2). -/
def CommandFields.mkdivReservedZero (f : CommandFields) : Bool := f.opc ≠ opcMkdiv || f.desc = Descriptor.zero

/-- `DIV` carries a well-formed descriptor (R50 lines 4 and 5). -/
def CommandFields.divDescOk (f : CommandFields) : Bool := f.opc ≠ opcDiv || f.desc.wellFormed

/-- The fields of a legal command (R50). -/
def CommandFields.wellFormed (f : CommandFields) : Bool := f.opcKnown && f.mkdivReservedZero && f.divDescOk

/-- A well-formed instruction: a divide carries a well-formed descriptor (R44). -/
def Instr.wellFormed : Instr → Bool
  | .mkdiv _ => true
  | .divS neg sh _ => Descriptor.wellFormed ⟨tagShift, neg, sh, 0#32⟩
  | .divM neg sh mc _ => Descriptor.wellFormed ⟨tagMagic, neg, sh, mc⟩

end Sys2Proof
end

