-- ==== Sys2Proof/Decode.lean ====
section
/-! DEFINITION. The decoder of 30_encoding.md rule R50, total on all command words, and the encoder. -/

namespace Sys2Proof

/-- Why a word is not a legal command: one name for each line of R50 that ends in a fault. -/
inductive DecodeError where
  /-- Line 1: `OPC` is neither `0x01` nor `0x02`. -/
  | unknownOpcode
  /-- Line 2: reserved bits of `MKDIV` not zero. -/
  | mkdivReservedBits
  /-- Line 4: reserved tag. -/
  | reservedTag
  /-- Line 5: `MC` of a SHIFT descriptor not zero. -/
  | shiftMultiplier
deriving DecidableEq, Repr

/-- The fields of a descriptor word (R43). -/
def descFields (D : DescWord) : Descriptor :=
  ⟨D.extractLsb' 38 2, D.getLsbD 37, D.extractLsb' 32 5, D.extractLsb' 0 32⟩

/-- The descriptor word with the given fields (R43). -/
def descWord (D : Descriptor) : DescWord := D.tag ++ BitVec.ofBool D.neg ++ D.sh ++ D.mc

/-- The fields of a command word (R41). -/
def commandFields (c : CmdWord) : CommandFields :=
  ⟨c.extractLsb' 72 8, descFields (c.extractLsb' 32 40), c.extractLsb' 0 32⟩

/-- The command word with the given fields (R41). -/
def commandWord (f : CommandFields) : CmdWord := f.opc ++ descWord f.desc ++ f.operand

/-- R50, its seven lines in order, over the fields of the word. -/
def decodeFields (f : CommandFields) : Except DecodeError Instr :=
  if f.opc ≠ opcMkdiv ∧ f.opc ≠ opcDiv then .error .unknownOpcode
  else if f.opc = opcMkdiv then
    if f.desc ≠ Descriptor.zero then .error .mkdivReservedBits
    else .ok (.mkdiv f.operand)
  else if f.desc.tag = tagShift then
    if f.desc.mc ≠ 0#32 then .error .shiftMultiplier
    else .ok (.divS f.desc.neg f.desc.sh f.operand)
  else if f.desc.tag = tagMagic then .ok (.divM f.desc.neg f.desc.sh f.desc.mc f.operand)
  else .error .reservedTag

/-- The decoder, total on all `2^80` command words (R50). -/
def decode (c : CmdWord) : Except DecodeError Instr := decodeFields (commandFields c)

/-- The field values of an instruction (R42, R43, R52). -/
def instrFields : Instr → CommandFields
  | .mkdiv d => ⟨opcMkdiv, Descriptor.zero, d⟩
  | .divS neg sh n => ⟨opcDiv, ⟨tagShift, neg, sh, 0#32⟩, n⟩
  | .divM neg sh mc n => ⟨opcDiv, ⟨tagMagic, neg, sh, mc⟩, n⟩

/-- The encoder: the one command word of an instruction (R52). -/
def encode (i : Instr) : CmdWord := commandWord (instrFields i)

/-- The mask of the instruction's form (R51, spec/opcode_table.json). -/
def formMask : Instr → CmdWord
  | .mkdiv _ => 0xFFFFFFFFFFFF00000000#80
  | .divS _ _ _ => 0xFFC0FFFFFFFF00000000#80
  | .divM _ _ _ _ => 0xFFC00000000000000000#80

/-- The match value of the instruction's form (R51, spec/opcode_table.json). -/
def formMatch : Instr → CmdWord
  | .mkdiv _ => 0x01000000000000000000#80
  | .divS _ _ _ => 0x02400000000000000000#80
  | .divM _ _ _ _ => 0x02800000000000000000#80

/-- The command word that the low `nbits` bits of `w` stand for: a command is one 80-bit word with bit 0 its least
significant bit (20_memory.md rule R31), which is also how spec/opcode_table.json numbers it; bits above `nbits` are
zero. -/
def tableWord (nbits w : Nat) : CmdWord := BitVec.ofNat 80 (w % 2 ^ nbits)

/-- What the decoder reads from a word given as spec/opcode_table.json numbers its bits. -/
def decodeTableWord (nbits w : Nat) : Option Instr :=
  match decode (tableWord nbits w) with
  | .ok i => some i
  | .error _ => none

end Sys2Proof
end

