-- ==== Sys2Proof/Machine/State.lean ====
section
/-! DEFINITION. The state of the block (10_state.md rules R10, R14 to R18, R24), the host's events, and the reset
state. Plain data throughout. -/

namespace Sys2Proof.Machine

/-- The phase `PH` (R10, R14). The fourth value of the two bits "is never taken", so it has no constructor
(notes/assumptions/9.md). -/
inductive Phase where
  | idle
  | busy
  | halt
deriving DecidableEq, Repr

/-- The working set of U_MAGIC, `DRV` (R18): 1 + 7 * 33 + 6 bits. -/
structure Drv where
  run   : Bool
  ad    : Reg33
  anc   : Reg33
  q1    : Reg33
  r1    : Reg33
  q2    : Reg33
  r2    : Reg33
  delta : Reg33
  p     : BitVec 6
deriving DecidableEq, Repr

/-- What the hosts do next (70_reset_and_hazards.md rule R149). -/
inductive HostEvent where
  /-- A host offers the word and the block answers it in one step: the collapsed `exec(c) = r` of 10_state.md R14. -/
  | run (c : CmdWord)
  /-- A host offers the word: the small step `accept(c)` of R14 once the block is idle. -/
  | offer (c : CmdWord)
  /-- The hosts do nothing; the block takes its own step, if one is enabled. -/
  | tick
  /-- A host asserts reset (R140). -/
  | reset
deriving DecidableEq, Repr

/-- The state. `ph`, `fsr`, `cmdr`, `drv` are the tuple of R10 and `port` is the response port of R24; `inbox` and
`sent` are the model's own, the environment as plain data (notes/assumptions/1.md and 3.md). -/
structure State where
  ph    : Phase
  fsr   : BitVec 4
  cmdr  : CmdWord
  drv   : Drv
  port  : Option RespWord
  inbox : List HostEvent
  sent  : List RespWord
deriving DecidableEq, Repr

/-- The model's own stops by fault. The three faults of 60_exceptions.md are not among them: each of those is TAKEN,
in a next state. -/
inductive Fault where
  /-- Raised by the small step `respond` for an `MKDIV` of a general divisor with `DRV.RUN = 0`: no rule gives such a
  command a response, and 42_magic_derivation.md R103 sets `RUN` at its `accept`, so no run reaches it. Safe
  (notes/assumptions/10.md). -/
  | noDerivationRunning
deriving DecidableEq, Repr

/-- Why a step has no meaning in the model. -/
inductive Refusal where
  /-- An instruction whose arm in `exec` has no meaning yet: none. Safe. -/
  | notModelled (mnemonic : String)
  /-- Raised by `MKDIV` if the derivation loop has not ended after the 31 iterations of 42_magic_derivation.md R98: only
  an input outside the domain of `derive` could do so (R101), and U_DISP passes none. Safe
  (notes/assumptions/10.md). -/
  | derivationOutsideDomain
deriving DecidableEq, Repr

/-- The working set after reset: `RUN = 0`; the other registers are unspecified and the model names zero for them
(R24; notes/assumptions/4.md). -/
def Drv.reset : Drv := ⟨false, 0#33, 0#33, 0#33, 0#33, 0#33, 0#33, 0#33, 0#6⟩

/-- The machine right after reset (R24), with nothing offered and nothing sent. `CMDR` is unspecified there and the
model names zero for it (notes/assumptions/4.md). -/
def State.reset : State :=
  { ph := .idle, fsr := 0#4, cmdr := 0#80, drv := Drv.reset, port := none, inbox := [], sent := [] }

end Sys2Proof.Machine
end

