-- ==== Sys2Proof/Machine/Arith.lean ====
section
/-! DEFINITION. The 32-bit primitives of 00_scope.md rule R6 and the truncating quotient of R7. Every shift amount in
the rules lies in 0..31 (R6); the definitions are not used beyond it (notes/assumptions/16.md). -/

namespace Sys2Proof.Machine

def add32 (a b : Word) : Word := a + b

def sub32 (a b : Word) : Word := a - b

/-- `neg32(INT_MIN) = INT_MIN` and `neg32(0) = 0`. -/
def neg32 (a : Word) : Word := -a

/-- Arithmetic shift right: `bv_32(floor(s(a) / 2^k))`. -/
def asr32 (a : Word) (k : Nat) : Word := a.sshiftRight k

/-- Logical shift right: `bv_32(floor(u(a) / 2^k))`. -/
def lsr32 (a : Word) (k : Nat) : Word := a >>> k

/-- Shift left: `bv_32(u(a) * 2^k)`. -/
def shl32 (a : Word) (k : Nat) : Word := a <<< k

/-- The number of zero bits above the highest set bit among the low `k` bits of `a`. -/
def leadingZeros (a : Word) : Nat → Nat
  | 0 => 0
  | k + 1 => if a.getLsbD k then 0 else leadingZeros a k + 1

/-- `clz32(0) = 32` is the spec's general knowledge, reached by no rule (notes/assumptions/15.md). -/
def clz32 (a : Word) : Nat := leadingZeros a 32

/-- The full 64-bit signed product. -/
def mul64s (a b : Word) : BitVec 64 := BitVec.ofInt 64 (a.toInt * b.toInt)

/-- Multiply-high: `mul64s(a, b)[63:32]`. -/
def mulhs32 (a b : Word) : Word := (mul64s a b).extractLsb' 32 32

/-- The quotient truncated toward zero: `sign(n) * sign(d) * floor(|n| / |d|)` (R7). -/
def tdiv (n d : Int) : Int := n.sign * d.sign * (n.natAbs / d.natAbs : Nat)

end Sys2Proof.Machine
end

