-- ==== Sys2Proof/Machine/Flags.lean ====
section
/-! DEFINITION. The one flag of the block, `OVF`, and the status and response words it travels in (10_state.md rule R16;
30_encoding.md rules R47 to R49). The block keeps no condition codes. -/

namespace Sys2Proof.Machine

/-- `ovf` of a shift divide (41_shift_strategy.md rule R85): set exactly when the magnitude is 1, the divisor is
negative and the dividend is `INT_MIN`. -/
def shiftOverflow (sh : BitVec 5) (neg : Bool) (n : Word) : Bool := sh = 0#5 && neg && n = intMin

/-- `STATUS = {FC, 000, OVF}` (R48). -/
def statusByte (fc : BitVec 4) (ovf : Bool) : BitVec 8 := fc ++ 0#3 ++ BitVec.ofBool ovf

/-- The response word `{STATUS, PAYLOAD}` (R47). -/
def responseWord (status : BitVec 8) (payload : DescWord) : RespWord := status ++ payload

/-- The response to a successful `MKDIV`: the descriptor, `OVF = 0` (R48, R49). -/
def descriptorResponse (D : Descriptor) : RespWord := responseWord (statusByte 0#4 false) (descWord D)

/-- The response to a `DIV`: `{0x00, q}` with its overflow flag (R48, R49). -/
def quotientResponse (q : Word) (ovf : Bool) : RespWord := responseWord (statusByte 0#4 ovf) (0#8 ++ q)

/-- The response to a fault: the cause, `OVF = 0`, payload zero (R49; 60_exceptions.md rule R126). -/
def faultResponse (fc : BitVec 4) : RespWord := responseWord (statusByte fc false) 0#40

/-- The cause field of a response word (R47, R48). -/
def responseFC (r : RespWord) : BitVec 4 := r.extractLsb' 44 4

/-- The overflow flag of a response word (R47, R48). -/
def responseOvf (r : RespWord) : Bool := r.getLsbD 40

/-- The payload of a response word (R47). -/
def responsePayload (r : RespWord) : DescWord := r.extractLsb' 0 40

/-- The quotient in the payload of a `DIV` response (R49). -/
def responseQuotient (r : RespWord) : Word := r.extractLsb' 0 32

end Sys2Proof.Machine
end

