-- ==== Sys2Proof/Machine/Operands.lean ====
section
/-! DEFINITION. How U_DISP reads the operand of `MKDIV`: sign, magnitude, class of the divisor, and the descriptor of
each class (40_dispatcher.md rules R61 to R66). The operand of `DIV` is carried as it stands (30_encoding.md R46). -/

namespace Sys2Proof.Machine

/-- `neg = d[31]` (R62). -/
def divisorNeg (d : Word) : Bool := d.getLsbD 31

/-- The magnitude vector, read unsigned from here on (R62): `INT_MIN` stays `0x80000000`, which reads `2^31`. -/
def magnitude (d : Word) : Word := if divisorNeg d then neg32 d else d

/-- The position of the highest set bit of the magnitude (R63). -/
def highestBit (ad : Word) : Nat := 31 - clz32 ad

/-- What the classification finds. -/
inductive DivisorClass where
  /-- `d = 0` (R61). -/
  | zero
  /-- `|d| = 2^k` (R64). -/
  | shift (neg : Bool) (k : Nat)
  /-- Any other divisor, with its magnitude (R66). -/
  | general (neg : Bool) (ad : Word)
deriving DecidableEq, Repr

/-- Lines 1 to 5 of the pseudocode of R60. -/
def classify (d : Word) : DivisorClass :=
  if d = 0#32 then .zero
  else
    let ad := magnitude d
    let k := highestBit ad
    if shl32 1#32 k = ad then .shift (divisorNeg d) k else .general (divisorNeg d) ad

/-- The SHIFT descriptor `{01, neg, k, 0}` (R65). -/
def shiftDescriptor (neg : Bool) (k : Nat) : Descriptor := ⟨tagShift, neg, BitVec.ofNat 5 k, 0#32⟩

/-- The MAGIC descriptor `{10, neg, s, M}` (R66). -/
def magicDescriptor (neg : Bool) (s : BitVec 5) (m : Word) : Descriptor := ⟨tagMagic, neg, s, m⟩

end Sys2Proof.Machine
end

