-- ==== Sys2Proof/Machine/Ops.lean ====
section
/-! DEFINITION. The shared operations on the state: taking a command, answering it, taking a fault, and reset. -/

namespace Sys2Proof.Machine

/-- Offer `c` to an idle block as far as it concerns every command: `CMDR <- c`, `PH <- BUSY` (10_state.md rule R14). No
response is pending while the command is in progress (R23; notes/assumptions/3.md). The start of a derivation is
`startDerivation`, beside U_MAGIC. -/
def acceptWord (c : CmdWord) (s : State) : State := { s with cmdr := c, ph := .busy, port := none }

/-- The step `respond(r)` of a command that did not fault (10_state.md rule R14): `r` leaves the block, `RUN <- 0`,
`PH <- IDLE`. -/
def respond (r : RespWord) (s : State) : State :=
  { s with port := some r, sent := s.sent ++ [r], drv := { s.drv with run := false }, ph := .idle }

/-- The causes of 60_exceptions.md rule R120. -/
inductive FaultCause where
  | divisorZero
  | illegalCmd
  | badDesc
deriving DecidableEq, Repr

/-- The code `FC` of a cause (R120). -/
def faultCode : FaultCause → BitVec 4
  | .divisorZero => 1#4
  | .illegalCmd => 2#4
  | .badDesc => 3#4

/-- The cause of each way a word can be illegal (30_encoding.md rule R50; 60_exceptions.md rules R122, R123). -/
def decodeErrorCause : DecodeError → FaultCause
  | .unknownOpcode => .illegalCmd
  | .mkdivReservedBits => .illegalCmd
  | .reservedTag => .badDesc
  | .shiftMultiplier => .badDesc

/-- Fault entry, `raise Fault(code)` (60_exceptions.md rule R126), in one step in place of `respond`: the cause into
`FSR`, the fault response out, `RUN <- 0`, `PH <- HALT`. Nothing else is saved and there is no handler. -/
def raiseFault (f : FaultCause) (s : State) : State :=
  { s with
    fsr := faultCode f
    port := some (faultResponse (faultCode f))
    sent := s.sent ++ [faultResponse (faultCode f)]
    drv := { s.drv with run := false }
    ph := .halt }

/-- The step `reset` of a host, enabled in every state and the only way out of `HALT` (70_reset_and_hazards.md rule R140;
60_exceptions.md rule R128: there is no return from a fault). What a host holds or is about to do is outside the
block and stays (R142). -/
def hostReset (s : State) : State := { State.reset with inbox := s.inbox, sent := s.sent }

/-- What the status output shows (10_state.md rule R15, 92_eei_decisions.md D23). -/
def statusOutput (s : State) : BitVec 4 := s.fsr

/-- A command is taken only in `IDLE` (10_state.md rule R14); a block in another phase is left as it is, the word neither
latched nor looked at (70_reset_and_hazards.md rule R144; notes/assumptions/11.md). -/
def whenIdle (s : State) (k : State → Host.Outcome State Fault Refusal) : Host.Outcome State Fault Refusal :=
  match s.ph with
  | .idle => k s
  | .busy => .next s
  | .halt => .next s

end Sys2Proof.Machine
end

