-- ==== Sys2Proof/Machine/Magic.lean ====
section
/-! DEFINITION. U_MAGIC, the magic-constant derivation (42_magic_derivation.md): the function `derive` over unbounded
naturals (R90 to R98) and the machine over the 33-bit registers of `DRV` (R103). -/

namespace Sys2Proof.Machine

/-- `two31 = 2^31` (R92). -/
abbrev two31 : Nat := 2 ^ 31

/-- `ad` is a power of two, `2^0` to `2^31`. -/
def isPow2 (ad : Nat) : Bool := (List.range 32).any fun k => ad = 2 ^ k

/-- The domain of `derive` (R90): 3 to `2^31 - 1`, powers of two excluded. -/
def inMagicDomain (ad : Nat) : Bool := 3 ≤ ad && ad ≤ two31 - 1 && !isPow2 ad

/-- `anc = two31 - 1 - (two31 mod ad)` (R92). -/
def ancOf (ad : Nat) : Nat := two31 - 1 - two31 % ad

/-- The variables of the loop of R90 as exact naturals (R91). -/
structure MagicVars where
  q1    : Nat
  r1    : Nat
  q2    : Nat
  r2    : Nat
  p     : Nat
  delta : Nat
deriving DecidableEq, Repr

/-- Lines 3 to 5 of R90 (R93); `delta` is not read before the first iteration writes it. -/
def magicInit (ad : Nat) : MagicVars :=
  { q1 := two31 / ancOf ad, r1 := two31 - two31 / ancOf ad * ancOf ad,
    q2 := two31 / ad, r2 := two31 - two31 / ad * ad, p := 31, delta := 0 }

/-- Lines 7 to 12 of R90, one iteration (R94). -/
def magicIter (ad anc : Nat) (v : MagicVars) : MagicVars :=
  let (q1, r1) := if anc ≤ 2 * v.r1 then (2 * v.q1 + 1, 2 * v.r1 - anc) else (2 * v.q1, 2 * v.r1)
  let (q2, r2) := if ad ≤ 2 * v.r2 then (2 * v.q2 + 1, 2 * v.r2 - ad) else (2 * v.q2, 2 * v.r2)
  { q1 := q1, r1 := r1, q2 := q2, r2 := r2, p := v.p + 1, delta := ad - r2 }

/-- Line 13 of R90: the loop repeats (R95). -/
def magicContinues (v : MagicVars) : Bool := v.q1 < v.delta || (v.q1 = v.delta && v.r1 = 0)

/-- The loop of R90, its test at the bottom, cut off after `fuel` iterations. -/
def magicLoop (ad anc : Nat) : Nat → MagicVars → Option MagicVars
  | 0, _ => none
  | fuel + 1, v =>
    let v' := magicIter ad anc v
    if magicContinues v' then magicLoop ad anc fuel v' else some v'

/-- `derive(ad) = (M, s)` (R90), with no result outside its domain (R101, 92_eei_decisions.md D20). -/
def derive (ad : Nat) : Option (Word × Nat) :=
  if inMagicDomain ad then
    (magicLoop ad (ancOf ad) Config.maxIterations (magicInit ad)).map
      fun v => (BitVec.ofNat 32 (v.q2 + 1), v.p - 32)
  else none

/-- R103 `start`: the registers at the `accept` of a general `MKDIV`. `DELTA` is not written (R18;
notes/assumptions/7.md). -/
def drvStart (ad : Word) (r : Drv) : Drv :=
  let a : Reg33 := ad.setWidth 33
  let t : Reg33 := BitVec.ofNat 33 two31
  let anc : Reg33 := t - 1#33 - t % a
  { r with run := true, ad := a, anc := anc,
           q1 := t / anc, r1 := t - t / anc * anc,
           q2 := t / a, r2 := t - t / a * a, p := 31#6 }

/-- R103 `iterate`: lines 7 to 12 of R90 on the registers, comparisons unsigned on the doubled values (R94). -/
def drvIterate (r : Drv) : Drv :=
  let q1 := if r.anc ≤ 2#33 * r.r1 then 2#33 * r.q1 + 1#33 else 2#33 * r.q1
  let r1 := if r.anc ≤ 2#33 * r.r1 then 2#33 * r.r1 - r.anc else 2#33 * r.r1
  let q2 := if r.ad ≤ 2#33 * r.r2 then 2#33 * r.q2 + 1#33 else 2#33 * r.q2
  let r2 := if r.ad ≤ 2#33 * r.r2 then 2#33 * r.r2 - r.ad else 2#33 * r.r2
  { r with q1 := q1, r1 := r1, q2 := q2, r2 := r2, p := r.p + 1#6, delta := r.ad - r2 }

/-- The loop condition of R95 on the registers, compared unsigned. -/
def drvContinues (r : Drv) : Bool := r.q1 < r.delta || (r.q1 = r.delta && r.r1 = 0#33)

/-- `ENDED` of R103: at least one iteration has been done and the loop condition is false. -/
def drvEnded (r : Drv) : Bool := 32#6 ≤ r.p && !drvContinues r

/-- `M = bv_32(Q2 + 1)` (R96, R103). -/
def drvMultiplier (r : Drv) : Word := (r.q2 + 1#33).setWidth 32

/-- `s = P - 32` (R96, R103), as the 5 bits of `SH`. -/
def drvShift (r : Drv) : BitVec 5 := BitVec.ofNat 5 (r.p.toNat - 32)

/-- `iterate` until `ENDED`, at most `fuel` times: the collapsed form of the `iterate` steps (10_state.md R14). -/
def drvLoop : Nat → Drv → Option Drv
  | 0, _ => none
  | fuel + 1, r => if drvEnded (drvIterate r) then some (drvIterate r) else drvLoop fuel (drvIterate r)

/-- The part of `accept(c)` that concerns U_MAGIC: `DRV` is initialised if the command is an `MKDIV` that reaches the
general path (10_state.md rule R14, R103). -/
def startDerivation (c : CmdWord) (r : Drv) : Drv :=
  match decode c with
  | .ok (.mkdiv d) =>
    match classify d with
    | .general _ ad => drvStart ad r
    | .shift _ _ => r
    | .zero => r
  | .ok (.divS _ _ _) => r
  | .ok (.divM _ _ _ _) => r
  | .error _ => r

end Sys2Proof.Machine
end

