-- ==== Sys2Proof/Machine/Construct.lean ====
section
/-! DEFINITION. `MKDIV` (40_dispatcher.md rules R60 to R66). -/

namespace Sys2Proof.Machine

/-- The answer to an accepted `MKDIV d`, the derivation of a general divisor having ended: lines 1, 6 and 9 of R60. -/
def answerMkdiv (d : Word) (s : State) : Host.Outcome State Fault Refusal :=
  match classify d with
  | .zero => .next (raiseFault .divisorZero s)
  | .shift neg k => .next (respond (descriptorResponse (shiftDescriptor neg k)) s)
  | .general neg _ =>
    if s.drv.run then
      .next (respond (descriptorResponse (magicDescriptor neg (drvShift s.drv) (drvMultiplier s.drv))) s)
    else .fault .noDerivationRunning

/-- The answer to `MKDIV d` with the registers the derivation ended with. -/
def answerDerived (d : Word) (s : State) : Option Drv → Host.Outcome State Fault Refusal
  | some r => answerMkdiv d { s with drv := r }
  | none => .refused .derivationOutsideDomain

/-- An accepted `MKDIV d`: the derivation, for a general divisor (lines 8 and 9 of R60), and the answer. -/
def runMkdiv (d : Word) (s : State) : Host.Outcome State Fault Refusal :=
  match classify d with
  | .zero => answerMkdiv d s
  | .shift _ _ => answerMkdiv d s
  | .general _ ad => answerDerived d s (drvLoop Config.maxIterations (drvStart ad s.drv))

/-- `MKDIV d` from its `accept` to its answer in one step (10_state.md rule R14). -/
def execMkdiv (d : Word) (s : State) : Host.Outcome State Fault Refusal :=
  whenIdle s fun s => runMkdiv d (acceptWord (encode (.mkdiv d)) s)

end Sys2Proof.Machine
end

