-- ==== Sys2Proof/Machine/General.lean ====
section
/-! DEFINITION. U_GEN and `DIV.M` (43_general_strategy.md; 40_dispatcher.md rule R70). -/

namespace Sys2Proof.Machine

/-- The high half with the correction for a multiplier with bit 31 set (R111, R112). -/
def generalHigh (mc n : Word) : Word :=
  if mc.getLsbD 31 then add32 (mulhs32 mc n) n else mulhs32 mc n

/-- The post-shift (R113). -/
def generalShifted (mc : Word) (sc : Nat) (n : Word) : Word := asr32 (generalHigh mc n) sc

/-- The sign term of the dividend (R114). -/
def signTerm (n : Word) : Word := asr32 n 31

/-- `general_divide` (R110), with its final combine (R115). -/
def generalQuotient (mc : Word) (sc : BitVec 5) (neg : Bool) (n : Word) : Word :=
  let r2 := generalShifted mc sc.toNat n
  if neg then sub32 (signTerm n) r2 else sub32 r2 (signTerm n)

/-- The answer to an accepted `DIV.M` (lines 6 to 8 of 40_dispatcher.md R68): `OVF = 0`. -/
def answerDivM (neg : Bool) (sh : BitVec 5) (mc n : Word) (s : State) : Host.Outcome State Fault Refusal :=
  .next (respond (quotientResponse (generalQuotient mc sh neg n) false) s)

/-- `DIV.M` from its `accept` to its answer in one step (10_state.md rule R14). -/
def execDivM (neg : Bool) (sh : BitVec 5) (mc n : Word) (s : State) : Host.Outcome State Fault Refusal :=
  whenIdle s fun s => answerDivM neg sh mc n (acceptWord (encode (.divM neg sh mc n)) s)

end Sys2Proof.Machine
end

