-- ==== Sys2Proof/Machine/Shift.lean ====
section
/-! DEFINITION. U_SHIFT and `DIV.S` (41_shift_strategy.md; 40_dispatcher.md rule R69). -/

namespace Sys2Proof.Machine

/-- The rounding bias for `1 <= sh <= 31` (R82). -/
def shiftBias (sh : Nat) (n : Word) : Word := lsr32 (asr32 n (sh - 1)) (32 - sh)

/-- The quotient before the sign step: the dividend itself for `sh = 0` (R81), else add the bias and shift (R83). -/
def shiftMagnitudeQuotient (sh : Nat) (n : Word) : Word :=
  if sh = 0 then n else asr32 (add32 n (shiftBias sh n)) sh

/-- The quotient of `shift_divide` (R80), the sign applied for every `sh`, 0 included (R84). -/
def shiftQuotient (sh : BitVec 5) (neg : Bool) (n : Word) : Word :=
  let q0 := shiftMagnitudeQuotient sh.toNat n
  if neg then neg32 q0 else q0

/-- The answer to an accepted `DIV.S` (lines 3 to 5 of 40_dispatcher.md R68). -/
def answerDivS (neg : Bool) (sh : BitVec 5) (n : Word) (s : State) : Host.Outcome State Fault Refusal :=
  .next (respond (quotientResponse (shiftQuotient sh neg n) (shiftOverflow sh neg n)) s)

/-- `DIV.S` from its `accept` to its answer in one step (10_state.md rule R14). -/
def execDivS (neg : Bool) (sh : BitVec 5) (n : Word) (s : State) : Host.Outcome State Fault Refusal :=
  whenIdle s fun s => answerDivS neg sh n (acceptWord (encode (.divS neg sh n)) s)

end Sys2Proof.Machine
end

