-- ==== Sys2Proof/Machine/Dispatch.lean ====
section
/-! DEFINITION. The meaning of each instruction, one arm per constructor. -/

namespace Sys2Proof.Machine

def exec (i : Instr) (s : State) : Host.Outcome State Fault Refusal :=
  match i with
  | .mkdiv d => Sys2Proof.Machine.execMkdiv d s
  | .divS neg sh n => Sys2Proof.Machine.execDivS neg sh n s
  | .divM neg sh mc n => Sys2Proof.Machine.execDivM neg sh mc n s

end Sys2Proof.Machine
end

