-- ==== Sys2Proof/Machine/Micro.lean ====
section
/-! DEFINITION. The steps of 10_state.md rule R14 one by one: `accept`, `iterate`, `respond`; and the collapsed step of
a whole command word. `reset` is `hostReset`. -/

namespace Sys2Proof.Machine

/-- `accept(c)` of an idle block: any 80-bit word is accepted, and a general `MKDIV` starts its derivation. -/
def acceptStep (c : CmdWord) (s : State) : State :=
  { acceptWord c s with drv := startDerivation c s.drv }

/-- `respond` for the command in `CMDR`: the answer of its rule, or the fault of an illegal word. -/
def respondStep (s : State) : Host.Outcome State Fault Refusal :=
  match decode s.cmdr with
  | .ok (.mkdiv d) => answerMkdiv d s
  | .ok (.divS neg sh n) => answerDivS neg sh n s
  | .ok (.divM neg sh mc n) => answerDivM neg sh mc n s
  | .error e => .next (raiseFault (decodeErrorCause e) s)

/-- The block's own step while `BUSY`: `iterate` while a derivation is running and has not ended, else `respond`. -/
def blockStep (s : State) : Host.Outcome State Fault Refusal :=
  if s.drv.run && !drvEnded s.drv then .next { s with drv := drvIterate s.drv } else respondStep s

/-- A whole command word in one step, `exec(c) = r` of R14: a legal word runs its instruction; an illegal one is
accepted and takes its fault. -/
def runWord (c : CmdWord) (s : State) : Host.Outcome State Fault Refusal :=
  match decode c with
  | .ok i => exec i s
  | .error e => whenIdle s fun s => .next (raiseFault (decodeErrorCause e) (acceptWord c s))

/-- One step: the host's next event decides in `IDLE` and for reset; in `BUSY` the block takes its own step and an
offered command waits, unlatched (70_reset_and_hazards.md R144); in `HALT` an offered command is never served and the
host's next event is taken instead (R144; notes/assumptions/5.md). With nothing to do the state stays as it is
(notes/assumptions/6.md). -/
def stepEvent (s : State) : Host.Outcome State Fault Refusal :=
  match s.inbox with
  | .reset :: rest => .next (hostReset { s with inbox := rest })
  | .tick :: rest =>
    match s.ph with
    | .idle => .next { s with inbox := rest }
    | .busy => blockStep { s with inbox := rest }
    | .halt => .next { s with inbox := rest }
  | .run c :: rest =>
    match s.ph with
    | .idle => runWord c { s with inbox := rest }
    | .busy => blockStep s
    | .halt => .next { s with inbox := rest }
  | .offer c :: rest =>
    match s.ph with
    | .idle => .next (acceptStep c { s with inbox := rest })
    | .busy => blockStep s
    | .halt => .next { s with inbox := rest }
  | [] =>
    match s.ph with
    | .idle => .next s
    | .busy => blockStep s
    | .halt => .next s

/-- Offer the word that the low `nbits` bits of `w` stand for as the host's next event, to be answered in one step. -/
def offerTableWord (s : State) (nbits w : Nat) : State :=
  { s with inbox := .run (tableWord nbits w) :: s.inbox }

end Sys2Proof.Machine
end

