-- ==== Sys2Proof/Machine/Step.lean ====
section
/-! DEFINITION. The step of the machine (10_state.md rule R14). -/

namespace Sys2Proof.Machine

/-- One step of the block and its hosts. -/
def step (s : State) : Host.Outcome State Fault Refusal := stepEvent s

/-- The state with an instruction placed where `step` takes its next one: the head of the inbox. The block fetches
nothing itself (20_memory.md rule R38), "A command is whatever word the host presents"; of an idle block the very next
step runs it (notes/assumptions/8.md). -/
def State.withFetchWord (s : State) (nbits w : Nat) : State := offerTableWord s nbits w

end Sys2Proof.Machine
end

