-- ==== Sys2Proof/Safety.lean ====
section
/-! DEFINITION. What claims about runs are stated in: the invariant of the state, runs, the response a command calls for,
and safe runs. -/

namespace Sys2Proof.Machine

/-- The value of the registers of U_MAGIC while a derivation for the magnitude `ad` is in flight, with the current
`P = p` (42_magic_derivation.md rules R92, R99; 10_state.md rule R18): the loop invariant, and that the loop condition
(R95, in its form over powers) held after every earlier iteration. -/
structure DrvHolds (ad : Nat) (r : Drv) : Prop where
  domain : inMagicDomain ad = true
  adIs : r.ad.toNat = ad
  ancIs : r.anc.toNat = ancOf ad
  pLow : 31 ≤ r.p.toNat
  pHigh : r.p.toNat ≤ 62
  q1Is : r.q1.toNat = 2 ^ r.p.toNat / ancOf ad
  r1Is : r.r1.toNat = 2 ^ r.p.toNat % ancOf ad
  q2Is : r.q2.toNat = 2 ^ r.p.toNat / ad
  r2Is : r.r2.toNat = 2 ^ r.p.toNat % ad
  deltaIs : 32 ≤ r.p.toNat → r.delta.toNat = ad - 2 ^ r.p.toNat % ad
  continuedBefore : ∀ j, 32 ≤ j → j < r.p.toNat → 2 ^ j ≤ ancOf ad * (ad - 2 ^ j % ad)

/-- The command word is an `MKDIV` that reaches the general path, with this sign and magnitude (R103). -/
def generalCommand (c : CmdWord) : Option (Bool × Word) :=
  match decode c with
  | .ok (.mkdiv d) =>
    match classify d with
    | .general neg ad => some (neg, ad)
    | .shift _ _ => none
    | .zero => none
  | .ok (.divS _ _ _) => none
  | .ok (.divM _ _ _ _) => none
  | .error _ => none

/-- The invariant of the state. The first and third clauses are those of 10_state.md rule R10, the second is R15's "4..15
are never written", the derivation clauses are R103 and R99, and the port clauses say that a pending response is the
last one sent and that none is pending while a command is in progress (R23). -/
structure State.Inv (s : State) : Prop where
  haltIffFault : s.ph = .halt ↔ s.fsr ≠ 0#4
  fsrCode : s.fsr.toNat ≤ 3
  runBusy : s.drv.run = true → s.ph = .busy
  runIffGeneral : s.ph = .busy → (s.drv.run = true ↔ (generalCommand s.cmdr).isSome = true)
  derivation : s.drv.run = true → ∀ neg ad, generalCommand s.cmdr = some (neg, ad) → DrvHolds ad.toNat s.drv
  busyNoResponse : s.ph = .busy → s.port = none
  portLastSent : ∀ r, s.port = some r → s.sent.getLast? = some r

/-- `k` steps of the machine; a stop anywhere is the stop of the whole. -/
def runSteps : Nat → State → Host.Outcome State Fault Refusal
  | 0, s => .next s
  | k + 1, s =>
    match step s with
    | .next t => runSteps k t
    | .fault f => .fault f
    | .refused r => .refused r

/-- The response a command word calls for, as a function of the word alone (00_scope.md rule R9), the constants being
those of `derive` (42_magic_derivation.md rule R90). It has a value for every word. -/
def responseTo (c : CmdWord) : Option RespWord :=
  match decode c with
  | .ok (.mkdiv d) =>
    match classify d with
    | .zero => some (faultResponse (faultCode .divisorZero))
    | .shift neg k => some (descriptorResponse (shiftDescriptor neg k))
    | .general neg ad =>
      (derive ad.toNat).map fun ms => descriptorResponse (magicDescriptor neg (BitVec.ofNat 5 ms.2) ms.1)
  | .ok (.divS neg sh n) => some (quotientResponse (shiftQuotient sh neg n) (shiftOverflow sh neg n))
  | .ok (.divM neg sh mc n) => some (quotientResponse (generalQuotient mc sh neg n) false)
  | .error e => some (faultResponse (faultCode (decodeErrorCause e)))

/-- The number of `iterate` steps of a command: `SH + 1` for a general `MKDIV` and none otherwise
(70_reset_and_hazards.md rule R147). -/
def iterationsOf (c : CmdWord) : Nat :=
  match generalCommand c with
  | some (_, ad) =>
    match derive ad.toNat with
    | some (_, s) => s + 1
    | none => 0
  | none => 0

/-- The fault a command word takes, if any (60_exceptions.md rules R120, R125). -/
def commandFault (c : CmdWord) : Option FaultCause :=
  match decode c with
  | .ok (.mkdiv d) => if d = 0#32 then some .divisorZero else none
  | .ok (.divS _ _ _) => none
  | .ok (.divM _ _ _ _) => none
  | .error e => some (decodeErrorCause e)

/-- A safe list of host events: every command in it is one that does not fault. -/
def safeEvents (es : List HostEvent) : Bool :=
  es.all fun e =>
    match e with
    | .run c => commandFault c = none
    | .offer c => commandFault c = none
    | .tick => true
    | .reset => true

/-- A safe state: the block is in service, the command in progress does not fault, and neither does any the hosts will
offer (70_reset_and_hazards.md rule R149, "the host must"). -/
structure State.Safe (s : State) : Prop where
  inv : s.Inv
  inService : s.ph ≠ .halt
  commandOk : s.ph = .busy → commandFault s.cmdr = none
  eventsOk : safeEvents s.inbox = true

end Sys2Proof.Machine
end

