-- ==== Sys2Proof/Certificates/Slice0/Obligations.lean ====
section
/-! DEFINITION. The statements for the provers. R<n> is a rule of spec/. Where a statement rests on a choice of the
model's own, its docstring names the log entry. The model's own fields `inbox` and `sent` (log 1, log 3) are spoken of in
the statements about runs, not in those about one instruction: `ResponseIsAFunctionOfTheCommand` says once what a whole
command does to them, and to `CMDR` (log 17). -/

open Sys2Proof Sys2Proof.Machine

/-! ### Reset, the phases, and what a step is -/

/-- 10_state.md R24, the rows that state a value: idle, no fault, no derivation, no response pending. -/
def Obligations.ResetStateIsIdleAndClear : Prop :=
  State.reset.ph = .idle ∧ State.reset.fsr = 0#4 ∧ State.reset.drv.run = false ∧ State.reset.port = none

/-- 70_reset_and_hazards.md R140: reset is enabled in every state; it makes the block idle, clears the fault and `RUN`,
leaves no response pending, and what the hosts hold or will do stays. (The values it gives to the unspecified components
are the model's choice, log 4, and are not stated.) -/
def Obligations.ResetStepClearsEveryState : Prop :=
  ∀ (s : State) (rest : List HostEvent), s.inbox = .reset :: rest →
    ∃ t, step s = .next t ∧ t.ph = .idle ∧ t.fsr = 0#4 ∧ t.drv.run = false ∧ t.port = none ∧
      t.inbox = rest ∧ t.sent = s.sent

/-- 60_exceptions.md R128: only reset leaves `HALT`. -/
def Obligations.OnlyResetLeavesHalt : Prop :=
  ∀ s t : State, s.ph = .halt → step s = .next t → t.ph ≠ .halt → ∃ rest, s.inbox = .reset :: rest

/-- R126, R144: until reset a halted block accepts nothing, answers nothing and changes nothing, however many steps pass.
(That the host's offers are used up meanwhile is the model's choice, log 5.) -/
def Obligations.HaltedBlockIsUnchangedUntilReset : Prop :=
  ∀ (k : Nat) (s : State), s.ph = .halt → HostEvent.reset ∉ s.inbox →
    runSteps k s = .next { s with inbox := s.inbox.drop k }

/-- 10_state.md R14: a step of an idle block to which a whole word is offered is the meaning of the instruction the word
decodes to, the offer being used up; an illegal word takes its fault. -/
def Obligations.StepRunsTheDecodedInstruction : Prop :=
  ∀ (s : State) (c : CmdWord) (rest : List HostEvent), s.ph = .idle → s.inbox = .run c :: rest →
    (∀ i, decode c = .ok i → step s = exec i { s with inbox := rest }) ∧
    (∀ e, decode c = .error e →
      step s = .next (raiseFault (decodeErrorCause e) (acceptWord c { s with inbox := rest })))

/-- The same from the encoding: the word of any instruction, placed as the next command, is run as that instruction. -/
def Obligations.PlacedEncodingIsRun : Prop :=
  ∀ (s : State) (i : Instr), s.ph = .idle → step (s.withFetchWord 80 (encode i).toNat) = exec i s

/-- 70_reset_and_hazards.md R144: no instruction has any effect on a block that is busy or halted. (That `exec` answers
the unchanged state there is the model's choice, log 11.) -/
def Obligations.CommandIsTurnedAwayUnlessIdle : Prop :=
  ∀ (i : Instr) (s : State), s.ph ≠ .idle → exec i s = .next s

/-- R144: a word offered while the block is busy is not latched, queued or looked at: it still waits after the step, and
another word in its place, offered either way, changes nothing else. -/
def Obligations.BusyBlockDoesNotLookAtTheOffer : Prop :=
  ∀ (s t : State) (c c' : CmdWord) (rest : List HostEvent), s.ph = .busy →
    step { s with inbox := .offer c :: rest } = .next t →
    t.inbox = .offer c :: rest ∧
    step { s with inbox := .offer c' :: rest } = .next { t with inbox := .offer c' :: rest } ∧
    step { s with inbox := .run c' :: rest } = .next { t with inbox := .run c' :: rest }

/-- 10_state.md R14, `accept(c)` of an idle block: any word is taken; the derivation of a general `MKDIV` starts. (That the
port is cleared is the model's choice, log 3.) -/
def Obligations.AcceptStepTakesAnyWord : Prop :=
  ∀ (s : State) (c : CmdWord) (rest : List HostEvent), s.ph = .idle → s.inbox = .offer c :: rest →
    step s = .next { s with
      inbox := rest, cmdr := c, ph := .busy, port := none,
      drv := match generalCommand c with
        | some (_, ad) => drvStart ad s.drv
        | none => s.drv }

/-- 70_reset_and_hazards.md R141: a reset while a command is in progress leaves it unanswered; the next command gets the
answer that is a function of its word alone, and nothing else was sent. -/
def Obligations.ResetAbandonsTheCommandInProgress : Prop :=
  ∀ (s : State) (c : CmdWord), s.ph = .busy → s.inbox = [.reset, .run c] →
    ∃ t r, runSteps 2 s = .next t ∧ responseTo c = some r ∧ t.sent = s.sent ++ [r] ∧ t.port = some r

/-- 10_state.md R15: `FSR` is written only by a fault entry, which halts the block, and by reset. -/
def Obligations.FsrChangesOnlyByFaultOrReset : Prop :=
  ∀ s t : State, step s = .next t → t.fsr ≠ s.fsr →
    (t.ph = .halt ∧ s.ph ≠ .halt ∧ t.fsr ≠ 0#4) ∨ ((∃ rest, s.inbox = .reset :: rest) ∧ t.fsr = 0#4)

/-- 10_state.md R17: `CMDR` is written only by `accept` (of an idle block), and then holds the word offered; reset leaves
it unspecified. -/
def Obligations.CmdrIsWrittenOnlyByAccept : Prop :=
  ∀ s t : State, step s = .next t → t.cmdr ≠ s.cmdr →
    (∃ rest, s.inbox = .reset :: rest) ∨
    (s.ph = .idle ∧ ∃ rest, s.inbox = .run t.cmdr :: rest ∨ s.inbox = .offer t.cmdr :: rest)

/-! ### Decoding -/

/-- 30_encoding.md R50, the seven lines in order, on the bits of the word: what the decoder reads, and the fault of each
illegal line (and of `MKDIV 0`), taken by an idle block. -/
def Obligations.DecoderFollowsTheSevenLines : Prop :=
  ∀ (c : CmdWord) (s : State), s.ph = .idle →
    let opc := c.extractLsb' 72 8
    let tag := c.extractLsb' 70 2
    let mc : Word := c.extractLsb' 32 32
    let operand : Word := c.extractLsb' 0 32
    let faults (code : BitVec 4) : Prop := ∃ t, runWord c s = .next t ∧ t.ph = .halt ∧ t.fsr = code
    if opc ≠ 0x01#8 ∧ opc ≠ 0x02#8 then decode c = .error .unknownOpcode ∧ faults 2#4
    else if opc = 0x01#8 ∧ c.extractLsb' 32 40 ≠ 0#40 then decode c = .error .mkdivReservedBits ∧ faults 2#4
    else if opc = 0x01#8 then decode c = .ok (.mkdiv operand) ∧ (operand = 0#32 → faults 1#4)
    else if tag = 0b00#2 ∨ tag = 0b11#2 then decode c = .error .reservedTag ∧ faults 3#4
    else if tag = 0b01#2 ∧ mc ≠ 0#32 then decode c = .error .shiftMultiplier ∧ faults 3#4
    else if tag = 0b01#2 then decode c = .ok (.divS (c.getLsbD 69) (c.extractLsb' 64 5) operand)
    else decode c = .ok (.divM (c.getLsbD 69) (c.extractLsb' 64 5) mc operand)

/-- 30_encoding.md R51: a word is of a form exactly when it matches under the form's mask; the forms are disjoint; a word
that matches none faults. -/
def Obligations.FormsAreTheirMasks : Prop :=
  ∀ c : CmdWord,
    let isMkdiv := c &&& 0xFFFFFFFFFFFF00000000#80 = 0x01000000000000000000#80
    let isDivS := c &&& 0xFFC0FFFFFFFF00000000#80 = 0x02400000000000000000#80
    let isDivM := c &&& 0xFFC00000000000000000#80 = 0x02800000000000000000#80
    (isMkdiv ↔ ∃ d, decode c = .ok (.mkdiv d)) ∧
    (isDivS ↔ ∃ neg sh n, decode c = .ok (.divS neg sh n)) ∧
    (isDivM ↔ ∃ neg sh mc n, decode c = .ok (.divM neg sh mc n)) ∧
    ¬(isMkdiv ∧ isDivS) ∧ ¬(isMkdiv ∧ isDivM) ∧ ¬(isDivS ∧ isDivM) ∧
    (¬isMkdiv → ¬isDivS → ¬isDivM → ∀ s : State, s.ph = .idle → ∃ t, runWord c s = .next t ∧ t.ph = .halt)

/-- Decoding the encoding of any instruction gives it back, every operand at every value. -/
def Obligations.DecodeOfEncodeIsTheInstruction : Prop :=
  ∀ i : Instr, i.wellFormed = true → decode (encode i) = .ok i

/-- Each legal word is the encoding of what it decodes to: no word has a second spelling. -/
def Obligations.EncodeOfDecodeIsTheWord : Prop :=
  ∀ (c : CmdWord) (i : Instr), decode c = .ok i → encode i = c ∧ i.wellFormed = true

/-- Words written out in 95_test_vectors.md and 30_encoding.md R52. -/
def Obligations.WrittenWordsDecode : Prop :=
  decode 0x01000000000000000007#80 = .ok (.mkdiv 7#32) ∧
  decode 0x024200000000FFFFFFEF#80 = .ok (.divS false 2#5 0xFFFFFFEF#32) ∧
  decode 0x02829249249300000064#80 = .ok (.divM false 2#5 0x92492493#32 100#32) ∧
  decode 0x02A292492493FFFFFF9C#80 = .ok (.divM true 2#5 0x92492493#32 0xFFFFFF9C#32) ∧
  decode 0x03000000000000000007#80 = .error .unknownOpcode ∧
  decode 0x01000000000100000007#80 = .error .mkdivReservedBits ∧
  decode 0x02C29249249300000064#80 = .error .reservedTag ∧
  decode 0x02420000000100000011#80 = .error .shiftMultiplier

/-- 30_encoding.md R44: `DIV` executes every well-formed descriptor with the meaning of its fields; one that is not
well-formed faults with BAD_DESC. -/
def Obligations.DivExecutesExactlyWellFormedDescriptors : Prop :=
  ∀ (s : State) (D : DescWord) (n : Word), s.ph = .idle →
    let tag := D.extractLsb' 38 2
    let neg := D.getLsbD 37
    let sh := D.extractLsb' 32 5
    let mc : Word := D.extractLsb' 0 32
    ∃ t r, runWord (0x02#8 ++ D ++ n) s = .next t ∧ t.port = some r ∧
      (tag = 0b10#2 → t.ph = .idle ∧ t.fsr = s.fsr ∧ r = 0x00#8 ++ (0x00#8 ++ generalQuotient mc sh neg n)) ∧
      (tag = 0b01#2 ∧ mc = 0#32 → t.ph = .idle ∧ t.fsr = s.fsr ∧
        r = 0#7 ++ BitVec.ofBool (shiftOverflow sh neg n) ++ (0x00#8 ++ shiftQuotient sh neg n)) ∧
      (¬(tag = 0b10#2 ∨ (tag = 0b01#2 ∧ mc = 0#32)) → t.ph = .halt ∧ t.fsr = 3#4 ∧ r = 0x300000000000#48)

/-! ### Faults -/

/-- 60_exceptions.md R120: which words take which fault, and what is recorded. R120 says that `CMDR` holds the word after
a fault; that it holds it also after a command that did not fault, the block idle again, is the model's choice
(log 17). -/
def Obligations.FaultsAreRaisedExactlyAsTabled : Prop :=
  ∀ (s : State) (c : CmdWord) (rest : List HostEvent), s.ph = .idle → s.fsr = 0#4 → s.inbox = .run c :: rest →
    let opc := c.extractLsb' 72 8
    let tag := c.extractLsb' 70 2
    ∃ t, step s = .next t ∧ t.cmdr = c ∧ (t.ph = .halt ↔ t.fsr ≠ 0#4) ∧
      (t.fsr = 1#4 ↔ opc = 0x01#8 ∧ c.extractLsb' 32 40 = 0#40 ∧ c.extractLsb' 0 32 = 0#32) ∧
      (t.fsr = 2#4 ↔ (opc ≠ 0x01#8 ∧ opc ≠ 0x02#8) ∨ (opc = 0x01#8 ∧ c.extractLsb' 32 40 ≠ 0#40)) ∧
      (t.fsr = 3#4 ↔ opc = 0x02#8 ∧ (tag = 0b00#2 ∨ tag = 0b11#2 ∨ (tag = 0b01#2 ∧ c.extractLsb' 32 32 ≠ 0#32))) ∧
      t.fsr.toNat ≤ 3 ∧
      (t.fsr ≠ 0#4 → t.drv = { s.drv with run := false } ∧ t.port = some (t.fsr ++ 0#44))

/-- 60_exceptions.md R126, fault entry: phase, fault status, working registers and response after a faulting command, in
one step and as the block's own small step; and from then on nothing but reset changes the block or has it answer. -/
def Obligations.FaultEntryHaltsWithTheCause : Prop :=
  (∀ (s : State) (c : CmdWord) (rest : List HostEvent) (f : FaultCause), s.ph = .idle → s.inbox = .run c :: rest →
    commandFault c = some f →
    ∃ t, step s = .next t ∧ t.fsr = faultCode f ∧ t.port = some (faultCode f ++ 0#4 ++ 0#40) ∧
      t.drv = { s.drv with run := false } ∧ t.ph = .halt) ∧
  (∀ (s : State) (f : FaultCause), s.ph = .busy → s.drv.run = false → commandFault s.cmdr = some f →
    ∃ t, blockStep s = .next t ∧ t.fsr = faultCode f ∧ t.port = some (faultCode f ++ 0#4 ++ 0#40) ∧
      t.drv = s.drv ∧ t.ph = .halt) ∧
  (∀ s : State, s.ph = .halt → HostEvent.reset ∉ s.inbox →
    ∃ t, step s = .next t ∧ t = { s with inbox := t.inbox })

/-- 40_dispatcher.md R61, 60_exceptions.md R121: `MKDIV 0` builds nothing and takes DIVISOR_ZERO. -/
def Obligations.MkdivZeroTakesDivisorZero : Prop :=
  ∀ s : State, s.ph = .idle →
    ∃ t, exec (.mkdiv 0#32) s = .next t ∧ t.ph = .halt ∧ t.fsr = 1#4 ∧ t.port = some 0x100000000000#48 ∧
      t.drv = { s.drv with run := false }

/-! ### MKDIV -/

/-- 40_dispatcher.md R62 and R63: sign and magnitude of the divisor, `INT_MIN` read as `2^31`, and the position of the
highest set bit of the magnitude. -/
def Obligations.MagnitudeAndHighestBitOfTheDivisor : Prop :=
  ∀ d : Word,
    (divisorNeg d = true ↔ d.toInt < 0) ∧ (divisorNeg d = d.getLsbD 31) ∧
    magnitude d = (if d.getLsbD 31 then neg32 d else d) ∧ (magnitude d).toNat = d.toInt.natAbs ∧
    magnitude intMin = intMin ∧ (magnitude intMin).toNat = 2 ^ 31 ∧
    clz32 intMin = 0 ∧ highestBit intMin = 31 ∧
    (d ≠ 0#32 →
      1 ≤ (magnitude d).toNat ∧ (magnitude d).toNat ≤ 2 ^ 31 ∧
      clz32 (magnitude d) ≤ 31 ∧ highestBit (magnitude d) = 31 - clz32 (magnitude d) ∧
      highestBit (magnitude d) ≤ 31 ∧ (magnitude d).getLsbD (highestBit (magnitude d)) = true ∧
      ∀ j, highestBit (magnitude d) < j → (magnitude d).getLsbD j = false)

/-- 40_dispatcher.md R72, R64: the variant tag of the descriptor `MKDIV` responds with is `SHIFT` for every power-of-two
magnitude and `MAGIC` for every other divisor. -/
def Obligations.RoutingFollowsThePowerOfTwo : Prop :=
  ∀ (d : Word) (s : State), s.ph = .idle → d ≠ 0#32 →
    ∃ t r, exec (.mkdiv d) s = .next t ∧ t.port = some r ∧
      ((∃ k, k ≤ 31 ∧ d.toInt.natAbs = 2 ^ k) → r.extractLsb' 38 2 = 0b01#2) ∧
      ((¬∃ k, k ≤ 31 ∧ d.toInt.natAbs = 2 ^ k) → r.extractLsb' 38 2 = 0b10#2)

/-- 40_dispatcher.md R65: `MKDIV` of a power of two answers its SHIFT descriptor; U_MAGIC is not invoked. -/
def Obligations.MkdivOfPowerOfTwoResponds : Prop :=
  ∀ (d : Word) (k : Nat) (s : State), s.ph = .idle → k ≤ 31 → d.toInt.natAbs = 2 ^ k →
    ∃ t, exec (.mkdiv d) s = .next t ∧
      t.port = some (0x00#8 ++ (0b01#2 ++ BitVec.ofBool (decide (d.toInt < 0)) ++ BitVec.ofNat 5 k ++ 0#32)) ∧
      t.ph = .idle ∧ t.fsr = s.fsr ∧ t.drv = { s.drv with run := false }

/-- 40_dispatcher.md R66: `MKDIV` of any other divisor answers its MAGIC descriptor, with the constants of `derive` on the
magnitude alone. (What the derivation leaves in the working registers is `CollapsedStepIsTheSmallSteps`.) -/
def Obligations.MkdivOfGeneralDivisorResponds : Prop :=
  ∀ (d : Word) (s : State), s.ph = .idle → d ≠ 0#32 → (¬∃ k, k ≤ 31 ∧ d.toInt.natAbs = 2 ^ k) →
    inMagicDomain d.toInt.natAbs = true ∧
    ∃ (M : Word) (sc : Nat) (t : State), derive d.toInt.natAbs = some (M, sc) ∧ sc ≤ 30 ∧
      exec (.mkdiv d) s = .next t ∧
      t.port = some (0x00#8 ++ (0b10#2 ++ BitVec.ofBool (decide (d.toInt < 0)) ++ BitVec.ofNat 5 sc ++ M)) ∧
      t.ph = .idle ∧ t.fsr = s.fsr ∧ t.drv.run = false

/-- 40_dispatcher.md R67: the payload of a successful `MKDIV` is a function of `d`, and two divisors never share one. -/
def Obligations.DescriptorDeterminesTheDivisor : Prop :=
  ∀ (d d' : Word) (s s' t t' : State), s.ph = .idle → s'.ph = .idle → d ≠ 0#32 → d' ≠ 0#32 →
    exec (.mkdiv d) s = .next t → exec (.mkdiv d') s' = .next t' → (t.port = t'.port ↔ d = d')

/-! ### The derivation -/

/-- 42_magic_derivation.md R92: the constant `anc`. -/
def Obligations.AncIsAlmostNc : Prop :=
  (∀ ad : Nat, inMagicDomain ad = true →
    ancOf ad = 2 ^ 31 - 1 - 2 ^ 31 % ad ∧ 0x40000000 ≤ ancOf ad ∧ ancOf ad ≤ 0x7FFFFFFE ∧ 2 ^ 31 % ad ≠ 0) ∧
  inMagicDomain (2 ^ 30 + 1) = true ∧ ancOf (2 ^ 30 + 1) = 0x40000000 ∧
  inMagicDomain (2 ^ 31 - 1) = true ∧ ancOf (2 ^ 31 - 1) = 0x7FFFFFFE

/-- 42_magic_derivation.md R93: the registers at the start of a derivation. -/
def Obligations.DerivationStartsAtTheQuotients : Prop :=
  ∀ (ad : Word) (r : Drv), inMagicDomain ad.toNat = true →
    let t := drvStart ad r
    t.anc.toNat = ancOf ad.toNat ∧ t.ad.toNat = ad.toNat ∧
    t.q1.toNat = 2 ^ 31 / ancOf ad.toNat ∧ t.r1.toNat = 2 ^ 31 % ancOf ad.toNat ∧
    t.q2.toNat = 2 ^ 31 / ad.toNat ∧ t.r2.toNat = 2 ^ 31 % ad.toNat ∧ t.p.toNat = 31 ∧
    (t.q1.toNat = 1 ∨ t.q1.toNat = 2) ∧ (t.q1.toNat = 2 → ancOf ad.toNat = 2 ^ 30)

/-- 42_magic_derivation.md R94, R91: one `iterate` step, as exact integer arithmetic on the registers; nothing else of
the state changes (a `tick` at the head of the inbox is used up). -/
def Obligations.IterateStepIsExact : Prop :=
  ∀ (s : State) (ad : Nat), s.ph = .busy → s.drv.run = true → drvEnded s.drv = false → DrvHolds ad s.drv →
    (∀ rest, s.inbox ≠ .reset :: rest) →
    ∃ t, step s = .next t ∧
      t = { s with drv := t.drv, inbox := if s.inbox.head? = some .tick then s.inbox.tail else s.inbox } ∧
      t.drv.run = true ∧ t.drv.ad = s.drv.ad ∧ t.drv.anc = s.drv.anc ∧ t.drv.p.toNat = s.drv.p.toNat + 1 ∧
      (t.drv.q1.toNat, t.drv.r1.toNat) =
        (if s.drv.anc.toNat ≤ 2 * s.drv.r1.toNat
          then (2 * s.drv.q1.toNat + 1, 2 * s.drv.r1.toNat - s.drv.anc.toNat)
          else (2 * s.drv.q1.toNat, 2 * s.drv.r1.toNat)) ∧
      (t.drv.q2.toNat, t.drv.r2.toNat) =
        (if s.drv.ad.toNat ≤ 2 * s.drv.r2.toNat
          then (2 * s.drv.q2.toNat + 1, 2 * s.drv.r2.toNat - s.drv.ad.toNat)
          else (2 * s.drv.q2.toNat, 2 * s.drv.r2.toNat)) ∧
      t.drv.delta.toNat = s.drv.ad.toNat - t.drv.r2.toNat

/-- 42_magic_derivation.md R99: the loop invariant, before the first iteration and after every iteration. -/
def Obligations.LoopInvariantHolds : Prop :=
  ∀ (ad : Word) (r : Drv) (k : Nat), inMagicDomain ad.toNat = true →
    (∀ j, 1 ≤ j → j < k → drvContinues (drvIterate^[j] (drvStart ad r)) = true) →
    let t := drvIterate^[k] (drvStart ad r)
    let p := t.p.toNat
    p = 31 + k ∧ t.q1.toNat = 2 ^ p / ancOf ad.toNat ∧ t.r1.toNat = 2 ^ p % ancOf ad.toNat ∧
    t.q2.toNat = 2 ^ p / ad.toNat ∧ t.r2.toNat = 2 ^ p % ad.toNat ∧
    t.r1.toNat < ancOf ad.toNat ∧ t.r2.toNat < ad.toNat ∧
    (1 ≤ k → t.delta.toNat = ad.toNat - t.r2.toNat ∧ 1 ≤ t.delta.toNat ∧ t.delta.toNat ≤ ad.toNat)

/-- 42_magic_derivation.md R95: the loop condition, and what it says of `2^p`. -/
def Obligations.LoopConditionComparesPowers : Prop :=
  ∀ (ad : Nat) (r : Drv), DrvHolds ad r → 32 ≤ r.p.toNat →
    (drvContinues r = true ↔
      r.q1.toNat < r.delta.toNat ∨ (r.q1.toNat = r.delta.toNat ∧ r.r1.toNat = 0)) ∧
    (drvContinues r = true ↔ 2 ^ r.p.toNat ≤ ancOf ad * (ad - 2 ^ r.p.toNat % ad)) ∧
    drvEnded r = !drvContinues r

/-- 42_magic_derivation.md R98: the derivation ends after at least 1 and at most 31 iterations, whatever the registers held
before it. (The counts of magnitudes in that rule are not stated.) -/
def Obligations.DerivationEndsWithinThirtyOneIterations : Prop :=
  ∀ (ad : Word) (r : Drv), inMagicDomain ad.toNat = true →
    ∃ k, 1 ≤ k ∧ k ≤ 31 ∧ drvEnded (drvIterate^[k] (drvStart ad r)) = true ∧
      (∀ j, j < k → drvEnded (drvIterate^[j] (drvStart ad r)) = false) ∧
      drvLoop Config.maxIterations (drvStart ad r) = some (drvIterate^[k] (drvStart ad r)) ∧
      (drvIterate^[k] (drvStart ad r)).p.toNat = 31 + k

/-- 42_magic_derivation.md R90, R103: the register machine, from start through its iterations to finish, computes the
function `derive` over exact integers. -/
def Obligations.RegisterMachineComputesDerive : Prop :=
  ∀ (ad : Word) (r : Drv), inMagicDomain ad.toNat = true →
    ∃ t, drvLoop Config.maxIterations (drvStart ad r) = some t ∧
      derive ad.toNat = some (drvMultiplier t, t.p.toNat - 32) ∧ (drvShift t).toNat = t.p.toNat - 32

/-- 42_magic_derivation.md R96: the results in closed form. -/
def Obligations.DerivedConstantsInClosedForm : Prop :=
  ∀ (ad : Nat) (M : Word) (s : Nat), derive ad = some (M, s) →
    s ≤ 30 ∧ 2 ^ (s + 32) / ad + 1 < 2 ^ 32 ∧ M.toNat = 2 ^ (s + 32) / ad + 1 ∧
    M.toNat * ad = 2 ^ (s + 32) + ad - 2 ^ (s + 32) % ad

/-- 42_magic_derivation.md R101: `derive` has no result outside its domain, and no `MKDIV` passes it such a magnitude. -/
def Obligations.DeriveIsNeverGivenAnOutsideMagnitude : Prop :=
  (∀ ad : Nat, inMagicDomain ad = true ↔ (derive ad).isSome = true) ∧
  (∀ ad : Nat, inMagicDomain ad = true ↔ 3 ≤ ad ∧ ad ≤ 2 ^ 31 - 1 ∧ ¬∃ k, ad = 2 ^ k) ∧
  (∀ (d : Word) (neg : Bool) (ad : Word), classify d = .general neg ad → inMagicDomain ad.toNat = true)

/-! ### DIV.S -/

/-- 41_shift_strategy.md R80, 40_dispatcher.md R69: `DIV.S` answers the quotient and flag of `shift_divide`. The working
registers but `RUN` and the fault status stay; the block is idle again. -/
def Obligations.DivSRespondsWithTheShiftQuotient : Prop :=
  ∀ (neg : Bool) (sh : BitVec 5) (n : Word) (s : State), s.ph = .idle →
    let q0 : Word := if sh = 0#5 then n else
      let t := asr32 n (sh.toNat - 1)
      let bias := lsr32 t (32 - sh.toNat)
      let sum := add32 n bias
      asr32 sum sh.toNat
    let q : Word := if neg then neg32 q0 else q0
    let ovf : Bool := decide (sh = 0#5 ∧ neg = true ∧ n = 0x80000000#32)
    ∃ t, exec (.divS neg sh n) s = .next t ∧ t.port = some (0#7 ++ BitVec.ofBool ovf ++ (0x00#8 ++ q)) ∧
      t.ph = .idle ∧ t.fsr = s.fsr ∧ t.drv = { s.drv with run := false }

/-- 41_shift_strategy.md R82: the rounding bias. -/
def Obligations.ShiftBiasIsTheSignMask : Prop :=
  ∀ (sh : Nat) (n : Word), 1 ≤ sh → sh ≤ 31 →
    let t := asr32 n (sh - 1)
    shiftBias sh n = lsr32 t (32 - sh) ∧
    (∀ j, 32 - sh ≤ j → j < 32 → t.getLsbD j = n.getLsbD 31) ∧
    (n.toInt < 0 → (shiftBias sh n).toNat = 2 ^ sh - 1) ∧ (0 ≤ n.toInt → shiftBias sh n = 0#32)

/-- 41_shift_strategy.md R83: add and shift turn the floor into truncation, and the addition never wraps. -/
def Obligations.ShiftQuotientTruncates : Prop :=
  ∀ (sh : Nat) (n : Word), 1 ≤ sh → sh ≤ 31 →
    let sum := add32 n (shiftBias sh n)
    let q0 := shiftMagnitudeQuotient sh n
    q0 = asr32 sum sh ∧ sum.toInt = n.toInt + (shiftBias sh n).toNat ∧
    (n.toInt < 0 → n.toInt + 2 ^ sh - 1 ≤ 2 ^ 31 - 2 ∧ q0.toInt = (n.toInt + 2 ^ sh - 1) / 2 ^ sh) ∧
    (0 ≤ n.toInt → q0.toInt = n.toInt / 2 ^ sh) ∧ q0.toInt = tdiv n.toInt (2 ^ sh)

/-- 41_shift_strategy.md R81, R84: the sign step, applied for every shift, 0 included; it never wraps for `sh >= 1`. -/
def Obligations.ShiftSignIsAppliedForEveryShift : Prop :=
  ∀ (sh : BitVec 5) (neg : Bool) (n : Word),
    let q0 := shiftMagnitudeQuotient sh.toNat n
    (neg = true → shiftQuotient sh neg n = neg32 q0) ∧ (neg = false → shiftQuotient sh neg n = q0) ∧
    (sh = 0#5 → q0 = n) ∧
    (sh ≠ 0#5 → -2 ^ 30 ≤ q0.toInt ∧ q0.toInt ≤ 2 ^ 30 - 1 ∧ (neg32 q0).toInt = -q0.toInt)

/-- 41_shift_strategy.md R85: the overflow flag marks the only inputs whose negation wraps; the block answers and stays in
service. -/
def Obligations.OverflowFlagMarksTheWrappedQuotient : Prop :=
  ∀ (sh : BitVec 5) (neg : Bool) (n : Word),
    (shiftOverflow sh neg n = true ↔ sh = 0#5 ∧ neg = true ∧ n = 0x80000000#32) ∧
    (shiftOverflow sh neg n = true ↔
      neg = true ∧ (shiftQuotient sh neg n).toInt ≠ -(shiftMagnitudeQuotient sh.toNat n).toInt) ∧
    (shiftOverflow sh neg n = true →
      shiftQuotient sh neg n = 0x80000000#32 ∧ tdiv n.toInt (-1) = 2 ^ 31 ∧
      ∀ s : State, s.ph = .idle → ∃ t, exec (.divS neg sh n) s = .next t ∧ t.ph = .idle ∧ t.fsr = s.fsr ∧
        t.port = some 0x010080000000#48)

/-- 41_shift_strategy.md R87: what U_SHIFT computes. -/
def Obligations.ShiftStrategyDividesByThePower : Prop :=
  ∀ (sh : BitVec 5) (neg : Bool) (n : Word),
    let D : Int := (if neg then -1 else 1) * 2 ^ sh.toNat
    (¬(sh = 0#5 ∧ neg = true ∧ n = intMin) → (shiftQuotient sh neg n).toInt = tdiv n.toInt D) ∧
    (sh = 0#5 ∧ neg = true ∧ n = intMin → shiftQuotient sh neg n = intMin ∧ shiftOverflow sh neg n = true)

/-! ### DIV.M -/

/-- 43_general_strategy.md R110, 40_dispatcher.md R70: `DIV.M` answers the quotient of `general_divide`; `OVF = 0`, and
U_MAGIC is not invoked. -/
def Obligations.DivMRespondsWithTheGeneralQuotient : Prop :=
  ∀ (neg : Bool) (sh : BitVec 5) (mc n : Word) (s : State), s.ph = .idle →
    let prod := mul64s mc n
    let hi : Word := prod.extractLsb' 32 32
    let r1 := if mc.getLsbD 31 then add32 hi n else hi
    let r2 := asr32 r1 sh.toNat
    let o := asr32 n 31
    let q := if neg then sub32 o r2 else sub32 r2 o
    ∃ t, exec (.divM neg sh mc n) s = .next t ∧ t.port = some (0x00#8 ++ (0x00#8 ++ q)) ∧
      t.ph = .idle ∧ t.fsr = s.fsr ∧ t.drv = { s.drv with run := false }

/-- 43_general_strategy.md R111: the widening multiply loses nothing and its high half is the floor. -/
def Obligations.MultiplyHighIsTheFloor : Prop :=
  ∀ mc n : Word, (mul64s mc n).toInt = mc.toInt * n.toInt ∧
    mulhs32 mc n = (mul64s mc n).extractLsb' 32 32 ∧ (mulhs32 mc n).toInt = mc.toInt * n.toInt / 2 ^ 32

/-- 43_general_strategy.md R112: the correction makes the multiplier unsigned, and its addition never wraps. -/
def Obligations.CorrectionReadsTheMultiplierUnsigned : Prop :=
  ∀ mc n : Word,
    (mc.getLsbD 31 = true → generalHigh mc n = add32 (mulhs32 mc n) n ∧
      (generalHigh mc n).toInt = (mulhs32 mc n).toInt + n.toInt) ∧
    (mc.getLsbD 31 = false → generalHigh mc n = mulhs32 mc n) ∧
    (generalHigh mc n).toInt = n.toInt * mc.toNat / 2 ^ 32

/-- 43_general_strategy.md R113 and R114: the post-shift is one floor of the whole product, and the sign term is 0 or
-1. -/
def Obligations.PostShiftFloorsTheWholeProduct : Prop :=
  ∀ (mc n : Word) (sc : BitVec 5),
    generalShifted mc sc.toNat n = asr32 (generalHigh mc n) sc.toNat ∧
    (generalShifted mc sc.toNat n).toInt = n.toInt * mc.toNat / 2 ^ (32 + sc.toNat) ∧
    signTerm n = asr32 n 31 ∧ (0 ≤ n.toInt → signTerm n = 0#32) ∧ (n.toInt < 0 → signTerm n = 0xFFFFFFFF#32)

/-- 43_general_strategy.md R115, R116: the final combine, for any descriptor, never wraps. -/
def Obligations.GeneralCombineNeverWraps : Prop :=
  ∀ (mc n : Word) (sc : BitVec 5) (neg : Bool),
    let r2 := generalShifted mc sc.toNat n
    let o := signTerm n
    (generalHigh mc n).toInt = (mulhs32 mc n).toInt + (if mc.getLsbD 31 then n.toInt else 0) ∧
    (n.toInt < 0 → r2.toInt ≤ 0) ∧ (0 ≤ n.toInt → 0 ≤ r2.toInt) ∧
    -2 ^ 31 + 1 ≤ r2.toInt - o.toInt ∧ r2.toInt - o.toInt ≤ 2 ^ 31 - 1 ∧
    (neg = false → generalQuotient mc sc neg n = sub32 r2 o ∧
      (generalQuotient mc sc neg n).toInt = r2.toInt - o.toInt) ∧
    (neg = true → generalQuotient mc sc neg n = sub32 o r2 ∧
      (generalQuotient mc sc neg n).toInt = o.toInt - r2.toInt)

/-- 43_general_strategy.md R117: with derived constants U_GEN is truncating division, for every magnitude, sign and
dividend. -/
def Obligations.DerivedConstantsDivide : Prop :=
  ∀ (ad : Nat) (M : Word) (sc : Nat) (neg : Bool) (n : Word), derive ad = some (M, sc) →
    (generalQuotient M (BitVec.ofNat 5 sc) neg n).toInt = tdiv n.toInt (if neg then -(ad : Int) else ad)

/-! ### The two commands together -/

/-- 40_dispatcher.md R71: for every divisor and dividend but `(-1, INT_MIN)`, `DIV` with the payload that `MKDIV` responded
with answers the truncated quotient with `STATUS = 0x00`, and the block is idle after both. -/
def Obligations.MkdivThenDivIsTruncatingDivision : Prop :=
  ∀ (d n : Word) (s : State), s.ph = .idle → d ≠ 0#32 → ¬(d = 0xFFFFFFFF#32 ∧ n = intMin) →
    ∃ t r, exec (.mkdiv d) s = .next t ∧ t.ph = .idle ∧ t.port = some r ∧ r.extractLsb' 40 8 = 0x00#8 ∧
    ∃ u w, runWord (0x02#8 ++ (r.extractLsb' 0 40 : DescWord) ++ n) t = .next u ∧ u.ph = .idle ∧
      u.port = some w ∧ w.extractLsb' 32 16 = 0#16 ∧
      (w.extractLsb' 0 32).toInt = tdiv n.toInt d.toInt ∧ t.fsr = s.fsr ∧ u.fsr = s.fsr

/-- 40_dispatcher.md R73: the divisor `INT_MIN`. -/
def Obligations.DivisorIntMinIsAShift : Prop :=
  ∀ (n : Word) (s : State), s.ph = .idle →
    ∃ t u, exec (.mkdiv intMin) s = .next t ∧ t.port = some 0x007F00000000#48 ∧
      runWord (0x02#8 ++ 0x7F00000000#40 ++ n) t = .next u ∧
      u.port = some (if n = intMin then 0x000000000001#48 else 0x000000000000#48)

/-- 40_dispatcher.md R74: the pair `(-1, INT_MIN)` wraps, is flagged, and does not fault. -/
def Obligations.IntMinByMinusOneWrapsAndFlags : Prop :=
  ∀ s : State, s.ph = .idle →
    ∃ t u, exec (.mkdiv 0xFFFFFFFF#32) s = .next t ∧ t.port = some 0x006000000000#48 ∧
      runWord (0x02#8 ++ 0x6000000000#40 ++ intMin) t = .next u ∧ u.port = some 0x010080000000#48 ∧
      u.ph = .idle ∧ u.fsr = s.fsr

/-- 30_encoding.md R48 and R49: the status byte and the payload of every response. -/
def Obligations.EveryResponseIsAStatusAndAPayload : Prop :=
  ∀ (s : State) (c : CmdWord), s.ph = .idle →
    ∃ t r, runWord c s = .next t ∧ t.port = some r ∧
      r.extractLsb' 44 4 = (match commandFault c with
        | some f => faultCode f
        | none => 0#4) ∧
      r.extractLsb' 41 3 = 0#3 ∧
      (r.getLsbD 40 = true ↔ decode c = .ok (.divS true 0#5 0x80000000#32)) ∧
      r.extractLsb' 40 8 ∈ [0x00#8, 0x01#8, 0x10#8, 0x20#8, 0x30#8] ∧
      (commandFault c ≠ none → r.extractLsb' 0 40 = 0#40) ∧
      (∀ (d : Word) (k : Nat), decode c = .ok (.mkdiv d) → k ≤ 31 → d.toInt.natAbs = 2 ^ k →
        r.extractLsb' 0 40 = 0b01#2 ++ BitVec.ofBool (decide (d.toInt < 0)) ++ BitVec.ofNat 5 k ++ 0#32) ∧
      (∀ (d M : Word) (sc : Nat), decode c = .ok (.mkdiv d) → derive d.toInt.natAbs = some (M, sc) →
        r.extractLsb' 0 40 = 0b10#2 ++ BitVec.ofBool (decide (d.toInt < 0)) ++ BitVec.ofNat 5 sc ++ M) ∧
      (∀ neg sh n, decode c = .ok (.divS neg sh n) → r.extractLsb' 0 40 = 0x00#8 ++ shiftQuotient sh neg n) ∧
      (∀ neg sh mc n, decode c = .ok (.divM neg sh mc n) → r.extractLsb' 0 40 = 0x00#8 ++ generalQuotient mc sh neg n)

/-- 00_scope.md R9, 10_state.md R11, 30_encoding.md R47: an idle block answers any word with exactly one response, a
function of the word alone, whatever earlier commands left in `CMDR` and `DRV`. -/
def Obligations.ResponseIsAFunctionOfTheCommand : Prop :=
  ∀ (s : State) (c : CmdWord), s.ph = .idle →
    ∃ t r, runWord c s = .next t ∧ responseTo c = some r ∧ t.port = some r ∧ t.sent = s.sent ++ [r] ∧
      t.inbox = s.inbox ∧ t.drv.run = false ∧ t.cmdr = c ∧
      t.ph = (if commandFault c = none then .idle else .halt) ∧
      t.fsr = (match commandFault c with
        | some f => faultCode f
        | none => s.fsr)

/-- 20_memory.md R34, R35: a sequence of commands none of which faults is answered in order, each response being that of
its command alone. -/
def Obligations.CommandSequenceIsAnsweredInOrder : Prop :=
  ∀ (cs : List CmdWord) (s : State), s.ph = .idle → (∀ c ∈ cs, commandFault c = none) →
    ∃ t rs, runSteps cs.length { s with inbox := cs.map HostEvent.run } = .next t ∧ t.ph = .idle ∧ t.fsr = s.fsr ∧
      t.inbox = [] ∧ cs.map responseTo = rs.map some ∧ t.sent = s.sent ++ rs

/-! ### The machine as a whole -/

/-- The invariant of 10_state.md R10 and 42_magic_derivation.md R99, R103 holds after reset. -/
def Obligations.ResetSatisfiesTheInvariant : Prop := State.reset.Inv

/-- Every step keeps the invariant, from every state that has it. -/
def Obligations.EveryStepKeepsTheInvariant : Prop :=
  ∀ s t : State, s.Inv → step s = .next t → t.Inv

/-- In a state with the invariant no step stops: the model's own fault and refusal are never met (log 10). -/
def Obligations.NoStepStopsUnderTheInvariant : Prop :=
  ∀ s : State, s.Inv → ∃ t, step s = .next t

/-- 70_reset_and_hazards.md R149: while hosts offer only commands that do not fault, no step halts the block. -/
def Obligations.SafeHostsNeverHaltTheBlock : Prop :=
  ∀ s t : State, s.Safe → step s = .next t → t.Safe

/-- 10_state.md R14, 70_reset_and_hazards.md R147: the collapsed step of a word is its `accept`, its `iterate` steps
(`SH + 1` for a general `MKDIV`, none otherwise) and its `respond`; in between the block is busy and has sent
nothing. -/
def Obligations.CollapsedStepIsTheSmallSteps : Prop :=
  ∀ (s : State) (c : CmdWord), s.Inv → s.ph = .idle →
    runSteps (iterationsOf c + 2) { s with inbox := [.offer c] } = step { s with inbox := [.run c] } ∧
    ∀ j, 1 ≤ j → j ≤ iterationsOf c + 1 →
      ∃ u, runSteps j { s with inbox := [.offer c] } = .next u ∧ u.ph = .busy ∧ u.sent = s.sent ∧ u.port = none

/-- 70_reset_and_hazards.md R148: a command in progress is answered after at most 31 `iterate` steps and its `respond`,
provided reset is not asserted. -/
def Obligations.CommandInProgressIsAnswered : Prop :=
  ∀ s : State, s.Inv → s.ph = .busy → HostEvent.reset ∉ s.inbox →
    ∃ k t r, k ≤ 31 ∧ runSteps (k + 1) s = .next t ∧ t.ph ≠ .busy ∧ t.sent = s.sent ++ [r] ∧
      responseTo s.cmdr = some r ∧ ∀ j, j ≤ k → ∃ u, runSteps j s = .next u ∧ u.ph = .busy ∧ u.sent = s.sent

/-- 00_scope.md R6: the primitives, as their definitions over integers say. -/
def Obligations.PrimitivesMeetTheirDefinitions : Prop :=
  ∀ (a b : Word) (k : Nat), k ≤ 31 →
    add32 a b = BitVec.ofNat 32 (a.toNat + b.toNat) ∧
    sub32 a b = BitVec.ofInt 32 ((a.toNat : Int) - b.toNat) ∧
    neg32 a = BitVec.ofNat 32 (2 ^ 32 - a.toNat) ∧
    asr32 a k = BitVec.ofInt 32 (a.toInt / 2 ^ k) ∧
    lsr32 a k = BitVec.ofNat 32 (a.toNat / 2 ^ k) ∧
    shl32 a k = BitVec.ofNat 32 (a.toNat * 2 ^ k) ∧
    (a ≠ 0#32 → 2 ^ (31 - clz32 a) ≤ a.toNat ∧ a.toNat < 2 ^ (32 - clz32 a)) ∧
    mul64s a b = BitVec.ofInt 64 (a.toInt * b.toInt) ∧
    mulhs32 a b = BitVec.ofInt 32 (a.toInt * b.toInt / 2 ^ 32)
end

