-- ==== Sys2Proof/Laws/Arith.lean ====
section
/-! SUPPORT. What the 32-bit primitives do to the signed and unsigned readings of their operands. -/

namespace Sys2Proof.Machine

theorem word_bounds (n : Word) : -2147483648 ≤ n.toInt ∧ n.toInt ≤ 2147483647 := by
  have := BitVec.le_toInt n
  have := BitVec.toInt_lt (x := n)
  omega

theorem asr32_toInt (a : Word) (k : Nat) : (asr32 a k).toInt = a.toInt / 2 ^ k := by
  rw [asr32, BitVec.toInt_sshiftRight, Int.shiftRight_eq_div_pow]
  norm_cast

theorem lsr32_toNat (a : Word) (k : Nat) : (lsr32 a k).toNat = a.toNat / 2 ^ k := by
  rw [lsr32, BitVec.toNat_ushiftRight, Nat.shiftRight_eq_div_pow]

/-- Signed addition is exact as long as the sum is a 32-bit value. -/
theorem add32_toInt (a b : Word) (h1 : -2147483648 ≤ a.toInt + b.toInt) (h2 : a.toInt + b.toInt ≤ 2147483647) :
    (add32 a b).toInt = a.toInt + b.toInt := by
  rw [add32, BitVec.toInt_add, Int.bmod_def]
  norm_num
  omega

/-- Signed subtraction is exact as long as the difference is a 32-bit value. -/
theorem sub32_toInt (a b : Word) (h1 : -2147483648 ≤ a.toInt - b.toInt) (h2 : a.toInt - b.toInt ≤ 2147483647) :
    (sub32 a b).toInt = a.toInt - b.toInt := by
  rw [sub32, BitVec.toInt_sub, Int.bmod_def]
  norm_num
  omega

/-- Negation is exact but for `INT_MIN`. -/
theorem neg32_toInt (a : Word) (h : a.toInt ≠ -2147483648) : (neg32 a).toInt = -a.toInt := by
  have := word_bounds a
  rw [neg32, BitVec.toInt_neg, Int.bmod_def]
  norm_num
  omega

/-- Bit 31 is the sign. -/
theorem getLsbD_31_eq (a : Word) : a.getLsbD 31 = decide (a.toInt < 0) := by
  rw [← BitVec.msb_eq_toInt (x := a)]
  rfl

/-- The signed reading is the unsigned one, less `2^32` if bit 31 is set. -/
theorem toInt_eq_toNat_sub (a : Word) : a.toInt = a.toNat - (if a.getLsbD 31 then 2 ^ 32 else 0) := by
  have := a.isLt
  have h := BitVec.toInt_eq_toNat_cond a
  rw [getLsbD_31_eq]
  split at h <;> rw [h] <;> simp <;> omega

end Sys2Proof.Machine
end

