-- ==== Sys2Proof/Laws/State.lean ====
section
/-! SUPPORT. One lemma per field of `State` (and of `Drv`) per shared update, true by `rfl`. -/

namespace Sys2Proof.Machine

variable (c : CmdWord) (r : RespWord) (f : FaultCause) (s : State) (d : Drv) (ad : Word)

@[simp] theorem acceptWord_ph : (acceptWord c s).ph = .busy := rfl
@[simp] theorem acceptWord_fsr : (acceptWord c s).fsr = s.fsr := rfl
@[simp] theorem acceptWord_cmdr : (acceptWord c s).cmdr = c := rfl
@[simp] theorem acceptWord_drv : (acceptWord c s).drv = s.drv := rfl
@[simp] theorem acceptWord_port : (acceptWord c s).port = none := rfl
@[simp] theorem acceptWord_inbox : (acceptWord c s).inbox = s.inbox := rfl
@[simp] theorem acceptWord_sent : (acceptWord c s).sent = s.sent := rfl

@[simp] theorem acceptStep_ph : (acceptStep c s).ph = .busy := rfl
@[simp] theorem acceptStep_fsr : (acceptStep c s).fsr = s.fsr := rfl
@[simp] theorem acceptStep_cmdr : (acceptStep c s).cmdr = c := rfl
@[simp] theorem acceptStep_drv : (acceptStep c s).drv = startDerivation c s.drv := rfl
@[simp] theorem acceptStep_port : (acceptStep c s).port = none := rfl
@[simp] theorem acceptStep_inbox : (acceptStep c s).inbox = s.inbox := rfl
@[simp] theorem acceptStep_sent : (acceptStep c s).sent = s.sent := rfl

@[simp] theorem respond_ph : (respond r s).ph = .idle := rfl
@[simp] theorem respond_fsr : (respond r s).fsr = s.fsr := rfl
@[simp] theorem respond_cmdr : (respond r s).cmdr = s.cmdr := rfl
@[simp] theorem respond_drv : (respond r s).drv = { s.drv with run := false } := rfl
@[simp] theorem respond_port : (respond r s).port = some r := rfl
@[simp] theorem respond_inbox : (respond r s).inbox = s.inbox := rfl
@[simp] theorem respond_sent : (respond r s).sent = s.sent ++ [r] := rfl

@[simp] theorem raiseFault_ph : (raiseFault f s).ph = .halt := rfl
@[simp] theorem raiseFault_fsr : (raiseFault f s).fsr = faultCode f := rfl
@[simp] theorem raiseFault_cmdr : (raiseFault f s).cmdr = s.cmdr := rfl
@[simp] theorem raiseFault_drv : (raiseFault f s).drv = { s.drv with run := false } := rfl
@[simp] theorem raiseFault_port : (raiseFault f s).port = some (faultResponse (faultCode f)) := rfl
@[simp] theorem raiseFault_inbox : (raiseFault f s).inbox = s.inbox := rfl
@[simp] theorem raiseFault_sent : (raiseFault f s).sent = s.sent ++ [faultResponse (faultCode f)] := rfl

@[simp] theorem hostReset_ph : (hostReset s).ph = .idle := rfl
@[simp] theorem hostReset_fsr : (hostReset s).fsr = 0#4 := rfl
@[simp] theorem hostReset_cmdr : (hostReset s).cmdr = State.reset.cmdr := rfl
@[simp] theorem hostReset_drv : (hostReset s).drv = Drv.reset := rfl
@[simp] theorem hostReset_port : (hostReset s).port = none := rfl
@[simp] theorem hostReset_inbox : (hostReset s).inbox = s.inbox := rfl
@[simp] theorem hostReset_sent : (hostReset s).sent = s.sent := rfl

@[simp] theorem drvReset_run : Drv.reset.run = false := rfl

@[simp] theorem drvStart_run : (drvStart ad d).run = true := rfl
@[simp] theorem drvStart_ad : (drvStart ad d).ad = ad.setWidth 33 := rfl
@[simp] theorem drvStart_delta : (drvStart ad d).delta = d.delta := rfl
@[simp] theorem drvStart_p : (drvStart ad d).p = 31#6 := rfl

@[simp] theorem drvIterate_run : (drvIterate d).run = d.run := rfl
@[simp] theorem drvIterate_ad : (drvIterate d).ad = d.ad := rfl
@[simp] theorem drvIterate_anc : (drvIterate d).anc = d.anc := rfl
@[simp] theorem drvIterate_p : (drvIterate d).p = d.p + 1#6 := rfl

end Sys2Proof.Machine
end

