-- ==== Sys2Proof/Laws/Magic.lean ====
section
/-! SUPPORT. Small lemmas about the loops of U_MAGIC. -/

namespace Sys2Proof.Machine

section
variable (ad : Word) (r : Drv)

theorem drvStart_anc :
    (drvStart ad r).anc = BitVec.ofNat 33 two31 - 1#33 - BitVec.ofNat 33 two31 % (drvStart ad r).ad := rfl
theorem drvStart_q1 : (drvStart ad r).q1 = BitVec.ofNat 33 two31 / (drvStart ad r).anc := rfl
theorem drvStart_r1 :
    (drvStart ad r).r1 = BitVec.ofNat 33 two31 - (drvStart ad r).q1 * (drvStart ad r).anc := rfl
theorem drvStart_q2 : (drvStart ad r).q2 = BitVec.ofNat 33 two31 / (drvStart ad r).ad := rfl
theorem drvStart_r2 :
    (drvStart ad r).r2 = BitVec.ofNat 33 two31 - (drvStart ad r).q2 * (drvStart ad r).ad := rfl

theorem drvIterate_q1 :
    (drvIterate r).q1 = if r.anc ≤ 2#33 * r.r1 then 2#33 * r.q1 + 1#33 else 2#33 * r.q1 := rfl
theorem drvIterate_r1 :
    (drvIterate r).r1 = if r.anc ≤ 2#33 * r.r1 then 2#33 * r.r1 - r.anc else 2#33 * r.r1 := rfl
theorem drvIterate_q2 :
    (drvIterate r).q2 = if r.ad ≤ 2#33 * r.r2 then 2#33 * r.q2 + 1#33 else 2#33 * r.q2 := rfl
theorem drvIterate_r2 :
    (drvIterate r).r2 = if r.ad ≤ 2#33 * r.r2 then 2#33 * r.r2 - r.ad else 2#33 * r.r2 := rfl
theorem drvIterate_delta : (drvIterate r).delta = r.ad - (drvIterate r).r2 := rfl

end

theorem isPow2_iff (ad : Nat) : isPow2 ad = true ↔ ∃ k, k < 32 ∧ ad = 2 ^ k := by
  simp [isPow2]

theorem inMagicDomain_iff (ad : Nat) :
    inMagicDomain ad = true ↔ 3 ≤ ad ∧ ad ≤ 2 ^ 31 - 1 ∧ ∀ k, k < 32 → ad ≠ 2 ^ k := by
  simp [inMagicDomain, isPow2, and_assoc, two31]

/-- What the register loop answers: the registers after `k` iterations, the first that has ended. -/
theorem drvLoop_eq_some {n : Nat} {r t : Drv} (h : drvLoop n r = some t) :
    ∃ k, 1 ≤ k ∧ k ≤ n ∧ t = drvIterate^[k] r ∧ drvEnded t = true ∧
      ∀ j, 1 ≤ j → j < k → drvEnded (drvIterate^[j] r) = false := by
  induction n generalizing r with
  | zero => simp [drvLoop] at h
  | succ n ih =>
    unfold drvLoop at h
    split at h
    next he =>
      cases h
      exact ⟨1, le_rfl, by omega, rfl, he, by omega⟩
    next he =>
      obtain ⟨k, hk1, hkn, ht, hend, hbefore⟩ := ih h
      refine ⟨k + 1, by omega, by omega, by rw [ht, Function.iterate_succ_apply], hend, ?_⟩
      intro j hj1 hjk
      obtain ⟨j, rfl⟩ : ∃ j', j = j' + 1 := ⟨j - 1, by omega⟩
      rw [Function.iterate_succ_apply]
      by_cases hj0 : j = 0
      · subst hj0; simpa using he
      · exact hbefore j (by omega) (by omega)

/-- The register loop has an answer once some iteration within the bound has ended. -/
theorem drvLoop_isSome {n k : Nat} {r : Drv} (h1 : 1 ≤ k) (hk : k ≤ n) (he : drvEnded (drvIterate^[k] r) = true) :
    ∃ t, drvLoop n r = some t := by
  induction n generalizing r k with
  | zero => omega
  | succ n ih =>
    unfold drvLoop
    split
    · exact ⟨_, rfl⟩
    next hne =>
      obtain ⟨k, rfl⟩ : ∃ k', k = k' + 1 := ⟨k - 1, by omega⟩
      rw [Function.iterate_succ_apply] at he
      have hk0 : k ≠ 0 := fun h0 => by subst h0; exact hne he
      exact ih (by omega) (by omega) he

/-- What the exact loop answers: the variables after `k` iterations, the first after which it does not continue. -/
theorem magicLoop_eq_some {ad anc n : Nat} {v w : MagicVars} (h : magicLoop ad anc n v = some w) :
    ∃ k, 1 ≤ k ∧ k ≤ n ∧ w = (magicIter ad anc)^[k] v ∧ magicContinues w = false ∧
      ∀ j, 1 ≤ j → j < k → magicContinues ((magicIter ad anc)^[j] v) = true := by
  induction n generalizing v with
  | zero => simp [magicLoop] at h
  | succ n ih =>
    unfold magicLoop at h
    simp only at h
    split at h
    next he =>
      obtain ⟨k, hk1, hkn, ht, hend, hbefore⟩ := ih h
      refine ⟨k + 1, by omega, by omega, by rw [ht, Function.iterate_succ_apply], hend, ?_⟩
      intro j hj1 hjk
      obtain ⟨j, rfl⟩ : ∃ j', j = j' + 1 := ⟨j - 1, by omega⟩
      rw [Function.iterate_succ_apply]
      by_cases hj0 : j = 0
      · subst hj0; simpa using he
      · exact hbefore j (by omega) (by omega)
    next he =>
      cases h
      exact ⟨1, le_rfl, by omega, rfl, by simpa using he, by omega⟩

/-- Doubling a dividend: quotient and remainder by one conditional subtraction (the step of R99). -/
theorem double_div_mod {m : Nat} (hm : 0 < m) (x : Nat) :
    (2 * x / m, 2 * x % m) =
      if m ≤ 2 * (x % m) then (2 * (x / m) + 1, 2 * (x % m) - m) else (2 * (x / m), 2 * (x % m)) := by
  have h1 := Nat.div_add_mod x m
  have h2 := Nat.mod_lt x hm
  have key : ∀ q r, r < m → 2 * x = m * q + r → (2 * x / m, 2 * x % m) = (q, r) := by
    intro q r hr he
    rw [he, Nat.mul_add_div hm, Nat.mul_add_mod, Nat.div_eq_of_lt hr, Nat.mod_eq_of_lt hr, Nat.add_zero]
  split
  · refine key _ _ (by omega) ?_
    rw [Nat.mul_add, Nat.mul_one, Nat.mul_left_comm]
    omega
  · refine key _ _ (by omega) ?_
    rw [Nat.mul_left_comm]
    omega

end Sys2Proof.Machine
end

