-- ==== Sys2Proof/Laws/Ops.lean ====
section
/-! SUPPORT. For each shared operation, once, everything it can do. -/

namespace Sys2Proof.Machine

@[simp] theorem whenIdle_idle {s : State} (h : s.ph = .idle) (k : State → Host.Outcome State Fault Refusal) :
    whenIdle s k = k s := by simp [whenIdle, h]

@[simp] theorem whenIdle_busy {s : State} (h : s.ph = .busy) (k : State → Host.Outcome State Fault Refusal) :
    whenIdle s k = .next s := by simp [whenIdle, h]

@[simp] theorem whenIdle_halt {s : State} (h : s.ph = .halt) (k : State → Host.Outcome State Fault Refusal) :
    whenIdle s k = .next s := by simp [whenIdle, h]

theorem faultCode_ne_zero (f : FaultCause) : faultCode f ≠ 0#4 := by cases f <;> decide

theorem faultCode_le_three (f : FaultCause) : (faultCode f).toNat ≤ 3 := by cases f <;> decide

theorem faultCode_injective {f g : FaultCause} (h : faultCode f = faultCode g) : f = g := by
  cases f <;> cases g <;> first | rfl | exact absurd h (by decide)

/-- An answer to `MKDIV` is a response or a fault entry, or the stop of a derivation that is not running. -/
theorem answerMkdiv_cases (d : Word) (s : State) :
    (classify d = .zero ∧ answerMkdiv d s = .next (raiseFault .divisorZero s)) ∨
    (∃ neg k, classify d = .shift neg k ∧
      answerMkdiv d s = .next (respond (descriptorResponse (shiftDescriptor neg k)) s)) ∨
    (∃ neg ad, classify d = .general neg ad ∧ s.drv.run = true ∧
      answerMkdiv d s =
        .next (respond (descriptorResponse (magicDescriptor neg (drvShift s.drv) (drvMultiplier s.drv))) s)) ∨
    (∃ neg ad, classify d = .general neg ad ∧ s.drv.run = false ∧ answerMkdiv d s = .fault .noDerivationRunning) := by
  unfold answerMkdiv
  cases h : classify d with
  | zero => simp
  | shift neg k => simp
  | general neg ad => cases hr : s.drv.run <;> simp

/-- The small step `respond` answers with a response or a fault entry, or stops in `answerMkdiv`. -/
theorem respondStep_cases (s : State) :
    (∃ r, respondStep s = .next (respond r s)) ∨ (∃ f, respondStep s = .next (raiseFault f s)) ∨
    (∃ d neg ad, decode s.cmdr = .ok (.mkdiv d) ∧ classify d = .general neg ad ∧ s.drv.run = false ∧
      respondStep s = .fault .noDerivationRunning) := by
  unfold respondStep
  cases h : decode s.cmdr with
  | error e => exact .inr (.inl ⟨_, rfl⟩)
  | ok i =>
    cases i with
    | divS neg sh n => exact .inl ⟨_, rfl⟩
    | divM neg sh mc n => exact .inl ⟨_, rfl⟩
    | mkdiv d =>
      rcases answerMkdiv_cases d s with ⟨-, h'⟩ | ⟨_, _, -, h'⟩ | ⟨_, _, -, -, h'⟩ | ⟨neg, ad, hc, hr, h'⟩
      · exact .inr (.inl ⟨_, h'⟩)
      · exact .inl ⟨_, h'⟩
      · exact .inl ⟨_, h'⟩
      · exact .inr (.inr ⟨d, neg, ad, rfl, hc, hr, h'⟩)

/-- The block's own step iterates or responds. -/
theorem blockStep_cases (s : State) :
    (s.drv.run = true ∧ drvEnded s.drv = false ∧ blockStep s = .next { s with drv := drvIterate s.drv }) ∨
    ((s.drv.run = true → drvEnded s.drv = true) ∧ blockStep s = respondStep s) := by
  unfold blockStep
  cases s.drv.run <;> cases drvEnded s.drv <;> simp

theorem drvLoop_run {n : Nat} {r t : Drv} (hr : r.run = true) (h : drvLoop n r = some t) : t.run = true := by
  induction n generalizing r with
  | zero => simp [drvLoop] at h
  | succ n ih =>
    unfold drvLoop at h
    split at h
    · cases h; simpa using hr
    · exact ih (by simpa using hr) h

theorem classify_eq_zero {d : Word} (h : classify d = .zero) : d = 0#32 := by
  unfold classify at h
  split at h
  · assumption
  · dsimp only at h; split at h <;> cases h

/-- An accepted `MKDIV` answers or takes DIVISOR_ZERO, or refuses a derivation that does not end. -/
theorem runMkdiv_cases (d : Word) (s : State) :
    (d = 0#32 ∧ runMkdiv d s = .next (raiseFault .divisorZero s)) ∨
    (∃ neg k, classify d = .shift neg k ∧
      runMkdiv d s = .next (respond (descriptorResponse (shiftDescriptor neg k)) s)) ∨
    (∃ neg ad r, classify d = .general neg ad ∧ drvLoop Config.maxIterations (drvStart ad s.drv) = some r ∧
      runMkdiv d s =
        .next (respond (descriptorResponse (magicDescriptor neg (drvShift r) (drvMultiplier r))) { s with drv := r })) ∨
    (∃ neg ad, classify d = .general neg ad ∧ drvLoop Config.maxIterations (drvStart ad s.drv) = none ∧
      runMkdiv d s = .refused .derivationOutsideDomain) := by
  unfold runMkdiv
  cases hc : classify d with
  | zero => exact .inl ⟨classify_eq_zero hc, by simp [answerMkdiv, hc]⟩
  | shift neg k => exact .inr (.inl ⟨neg, k, rfl, by simp [answerMkdiv, hc]⟩)
  | general neg ad =>
    dsimp only
    cases hl : drvLoop Config.maxIterations (drvStart ad s.drv) with
    | none => exact .inr (.inr (.inr ⟨neg, ad, rfl, hl, rfl⟩))
    | some r =>
      have hr : r.run = true := drvLoop_run (drvStart_run s.drv ad) hl
      exact .inr (.inr (.inl ⟨neg, ad, r, rfl, hl, by simp [answerDerived, answerMkdiv, hc, hr]⟩))

/-- What an instruction can do to an idle block: answer, from the state its `accept` (and, for a general `MKDIV`, its
derivation) leaves, or take DIVISOR_ZERO, or refuse a derivation that does not end. -/
theorem exec_idle_cases (i : Instr) {s : State} (h : s.ph = .idle) :
    (∃ r d, exec i s = .next (respond r { acceptWord (encode i) s with drv := d })) ∨
    (i = .mkdiv 0#32 ∧ exec i s = .next (raiseFault .divisorZero (acceptWord (encode i) s))) ∨
    (∃ d neg ad, i = .mkdiv d ∧ classify d = .general neg ad ∧
      drvLoop Config.maxIterations (drvStart ad s.drv) = none ∧ exec i s = .refused .derivationOutsideDomain) := by
  cases i with
  | divS neg sh n => exact .inl ⟨_, s.drv, by rw [exec, execDivS, whenIdle_idle h, answerDivS]; rfl⟩
  | divM neg sh mc n => exact .inl ⟨_, s.drv, by rw [exec, execDivM, whenIdle_idle h, answerDivM]; rfl⟩
  | mkdiv d =>
    rw [exec, execMkdiv, whenIdle_idle h]
    rcases runMkdiv_cases d (acceptWord (encode (.mkdiv d)) s) with
      ⟨rfl, h'⟩ | ⟨_, _, -, h'⟩ | ⟨_, _, r, -, -, h'⟩ | ⟨neg, ad, hc, hl, h'⟩
    · exact .inr (.inl ⟨rfl, h'⟩)
    · exact .inl ⟨_, s.drv, h'⟩
    · exact .inl ⟨_, r, h'⟩
    · exact .inr (.inr ⟨d, neg, ad, rfl, hc, hl, h'⟩)

end Sys2Proof.Machine
end

