-- ==== Sys2Proof/Laws/PerInstr.lean ====
section
/-! SUPPORT. Families of facts about instructions as syntax, one lemma per constructor.
`WellFormed`: every instruction is well-formed and so are the fields its encoding is made of (30_encoding.md rules R44,
R50): the type holds no ill-formed command. -/

namespace Sys2Proof.Laws.WellFormed

def Statement (i : Instr) : Prop := i.wellFormed = true ∧ (instrFields i).wellFormed = true

theorem mkdiv (d : Word) : Statement (.mkdiv d) := by
  refine ⟨rfl, ?_⟩
  simp [instrFields, CommandFields.wellFormed, CommandFields.opcKnown, CommandFields.mkdivReservedZero,
    CommandFields.divDescOk, show opcMkdiv ≠ opcDiv by decide]

theorem descriptor_shift (neg : Bool) (sh : BitVec 5) : Descriptor.wellFormed ⟨tagShift, neg, sh, 0#32⟩ = true := by
  simp [Descriptor.wellFormed, Descriptor.tagKnown, Descriptor.shiftMcZero]

theorem descriptor_magic (neg : Bool) (sh : BitVec 5) (mc : Word) :
    Descriptor.wellFormed ⟨tagMagic, neg, sh, mc⟩ = true := by
  simp [Descriptor.wellFormed, Descriptor.tagKnown, Descriptor.shiftMcZero, show tagMagic ≠ tagShift by decide]

theorem divS (neg : Bool) (sh : BitVec 5) (n : Word) : Statement (.divS neg sh n) := by
  refine ⟨descriptor_shift neg sh, ?_⟩
  simp [instrFields, CommandFields.wellFormed, CommandFields.opcKnown, CommandFields.mkdivReservedZero,
    CommandFields.divDescOk, descriptor_shift, show opcDiv ≠ opcMkdiv by decide]

theorem divM (neg : Bool) (sh : BitVec 5) (mc n : Word) : Statement (.divM neg sh mc n) := by
  refine ⟨descriptor_magic neg sh mc, ?_⟩
  simp [instrFields, CommandFields.wellFormed, CommandFields.opcKnown, CommandFields.mkdivReservedZero,
    CommandFields.divDescOk, descriptor_magic, show opcDiv ≠ opcMkdiv by decide]

end Sys2Proof.Laws.WellFormed
end

