-- ==== Sys2Proof/Laws/Step.lean ====
section
/-! SUPPORT. What a step can do, once. -/

namespace Sys2Proof.Machine

/-- The inbox after the block's own step: a `tick` at its head is used up, anything else stays. -/
def dropTick : List HostEvent → List HostEvent
  | .tick :: rest => rest
  | es => es

/-- The five things a step can be: reset, nothing (the block is not busy and the head of the inbox, if any, is used
up), a whole command, an accept, the block's own step. -/
theorem step_cases (s : State) :
    (∃ rest, s.inbox = .reset :: rest ∧ step s = .next (hostReset { s with inbox := rest })) ∨
    (s.ph ≠ .busy ∧ s.inbox.head? ≠ some .reset ∧ step s = .next { s with inbox := s.inbox.tail }) ∨
    (∃ c rest, s.ph = .idle ∧ s.inbox = .run c :: rest ∧ step s = runWord c { s with inbox := rest }) ∨
    (∃ c rest, s.ph = .idle ∧ s.inbox = .offer c :: rest ∧ step s = .next (acceptStep c { s with inbox := rest })) ∨
    (s.ph = .busy ∧ s.inbox.head? ≠ some .reset ∧ step s = blockStep { s with inbox := dropTick s.inbox }) := by
  obtain ⟨ph, fsr, cmdr, drv, port, inbox, sent⟩ := s
  unfold step stepEvent
  rcases inbox with _ | ⟨e, rest⟩
  · cases ph
    · exact .inr (.inl ⟨by simp, by simp, rfl⟩)
    · exact .inr (.inr (.inr (.inr ⟨rfl, by simp, rfl⟩)))
    · exact .inr (.inl ⟨by simp, by simp, rfl⟩)
  · cases e with
    | reset => exact .inl ⟨rest, rfl, rfl⟩
    | tick =>
      cases ph
      · exact .inr (.inl ⟨by simp, by simp, rfl⟩)
      · exact .inr (.inr (.inr (.inr ⟨rfl, by simp, rfl⟩)))
      · exact .inr (.inl ⟨by simp, by simp, rfl⟩)
    | run c =>
      cases ph
      · exact .inr (.inr (.inl ⟨c, rest, rfl, rfl, rfl⟩))
      · exact .inr (.inr (.inr (.inr ⟨rfl, by simp, rfl⟩)))
      · exact .inr (.inl ⟨by simp, by simp, rfl⟩)
    | offer c =>
      cases ph
      · exact .inr (.inr (.inr (.inl ⟨c, rest, rfl, rfl, rfl⟩)))
      · exact .inr (.inr (.inr (.inr ⟨rfl, by simp, rfl⟩)))
      · exact .inr (.inl ⟨by simp, by simp, rfl⟩)

theorem runWord_ok {c : CmdWord} {i : Instr} (h : decode c = .ok i) (s : State) : runWord c s = exec i s := by
  simp [runWord, h]

theorem runWord_error {c : CmdWord} {e : DecodeError} (h : decode c = .error e) (s : State) :
    runWord c s = whenIdle s fun s => .next (raiseFault (decodeErrorCause e) (acceptWord c s)) := by
  simp [runWord, h]

/-- A whole command word on an idle block answers, faults, or refuses a derivation that does not end. -/
theorem runWord_idle_cases (c : CmdWord) {s : State} (h : s.ph = .idle) :
    (∃ r w d, runWord c s = .next (respond r { acceptWord w s with drv := d })) ∨
    (∃ f w, runWord c s = .next (raiseFault f (acceptWord w s))) ∨
    (∃ d neg ad, decode c = .ok (.mkdiv d) ∧ classify d = .general neg ad ∧
      drvLoop Config.maxIterations (drvStart ad s.drv) = none ∧ runWord c s = .refused .derivationOutsideDomain) := by
  cases hd : decode c with
  | error e =>
    rw [runWord_error hd, whenIdle_idle h]
    exact .inr (.inl ⟨_, _, rfl⟩)
  | ok i =>
    rw [runWord_ok hd]
    rcases exec_idle_cases i h with ⟨r, d, h'⟩ | ⟨-, h'⟩ | ⟨d, neg, ad, rfl, hc, hl, h'⟩
    · exact .inl ⟨r, _, d, h'⟩
    · exact .inr (.inl ⟨_, _, h'⟩)
    · exact .inr (.inr ⟨d, neg, ad, rfl, hc, hl, h'⟩)

theorem runSteps_zero (s : State) : runSteps 0 s = .next s := rfl

/-- A run whose first step answers `t` goes on from `t`. -/
theorem runSteps_succ {k : Nat} {s t : State} (h : step s = .next t) : runSteps (k + 1) s = runSteps k t := by
  simp only [runSteps, h]

/-- A run of `j + k` steps is a run of `j` and then one of `k`. -/
theorem runSteps_add {j k : Nat} {s t : State} (h : runSteps j s = .next t) : runSteps (j + k) s = runSteps k t := by
  induction j generalizing s with
  | zero => cases h; rw [Nat.zero_add]
  | succ j ih =>
    cases hs : step s with
    | next u =>
      rw [runSteps_succ hs] at h
      rw [Nat.succ_add, runSteps_succ hs, ih h]
    | fault f => simp [runSteps, hs] at h
    | refused r => simp [runSteps, hs] at h

end Sys2Proof.Machine
end

