-- ==== Sys2Proof/Tests/Slice0.lean ====
section
/-! SUPPORT. The model's own tests: the checks of WellFormed.lean on ill-formed terms, decoding of words written out
from the spec, single steps against the spec's vectors, and for every obligation with hypotheses concrete values that
meet all of them (names beginning with `witness_`). -/

namespace Sys2Proof.Tests.Slice0

open Sys2Proof.Machine

/-! ### WellFormed: for each check an ill-formed term it refuses -/

theorem test_reserved_tag_00_refused : Descriptor.tagKnown ⟨0b00#2, false, 2#5, 0#32⟩ = false := by decide

theorem test_reserved_tag_11_refused : Descriptor.wellFormed ⟨0b11#2, false, 2#5, 0x92492493#32⟩ = false := by decide

theorem test_shift_with_multiplier_refused :
    Descriptor.shiftMcZero ⟨tagShift, false, 2#5, 1#32⟩ = false ∧
    Descriptor.wellFormed ⟨tagShift, false, 2#5, 1#32⟩ = false := by decide

theorem test_unknown_opcode_refused :
    CommandFields.opcKnown ⟨0x03#8, Descriptor.zero, 7#32⟩ = false ∧
    CommandFields.wellFormed ⟨0x03#8, Descriptor.zero, 7#32⟩ = false := by decide

theorem test_mkdiv_reserved_bits_refused :
    CommandFields.mkdivReservedZero ⟨opcMkdiv, ⟨0b00#2, false, 0#5, 1#32⟩, 7#32⟩ = false ∧
    CommandFields.wellFormed ⟨opcMkdiv, ⟨0b00#2, false, 0#5, 1#32⟩, 7#32⟩ = false := by decide

theorem test_div_bad_descriptor_refused :
    CommandFields.divDescOk ⟨opcDiv, ⟨0b11#2, false, 2#5, 0#32⟩, 100#32⟩ = false ∧
    CommandFields.wellFormed ⟨opcDiv, ⟨0b11#2, false, 2#5, 0#32⟩, 100#32⟩ = false := by decide

/-! ### Decoding: words written out field by field from 30_encoding.md R41 to R43, and the words of 95_test_vectors.md
sections 2.1, 2.2, 2.5 and 2.6 -/

/-- `{OPC = 01, 40 zero bits, d = 7}`. -/
theorem test_decode_mkdiv :
    decode (0b00000001#8 ++ 0b00#2 ++ 0b0#1 ++ 0b00000#5 ++ 0x00000000#32 ++ 0x00000007#32) = .ok (.mkdiv 7#32) ∧
    decodeTableWord 80 0x01000000000000000007 = some (.mkdiv 7#32) := by decide

/-- `{OPC = 02, TAG = 01, NEG = 1, SH = 31, MC = 0, n}`. -/
theorem test_decode_divS :
    decode (0b00000010#8 ++ 0b01#2 ++ 0b1#1 ++ 0b11111#5 ++ 0x00000000#32 ++ 0x80000000#32) =
      .ok (.divS true 31#5 0x80000000#32) ∧
    decodeTableWord 80 0x024200000000FFFFFFEF = some (.divS false 2#5 0xFFFFFFEF#32) := by decide

/-- `{OPC = 02, TAG = 10, NEG = 0, SH = 2, MC, n}`. -/
theorem test_decode_divM :
    decode (0b00000010#8 ++ 0b10#2 ++ 0b0#1 ++ 0b00010#5 ++ 0x92492493#32 ++ 0x00000064#32) =
      .ok (.divM false 2#5 0x92492493#32 100#32) ∧
    decodeTableWord 80 0x02BFFFFFFFFF7FFFFFFF = some (.divM true 31#5 0xFFFFFFFF#32 0x7FFFFFFF#32) := by decide

/-- The four kinds of illegal word (R50 lines 1, 2, 4, 5), and that line 4 is read before line 5 and line 2 before the
zero divisor (R125). -/
theorem test_decode_illegal :
    decode 0x03000000000000000007#80 = .error .unknownOpcode ∧
    decode 0xFFFFFFFFFFFFFFFFFFFF#80 = .error .unknownOpcode ∧
    decode 0x01800000000000000000#80 = .error .mkdivReservedBits ∧
    decode 0x02000000000500000011#80 = .error .reservedTag ∧
    decode 0x02C29249249300000064#80 = .error .reservedTag ∧
    decode 0x02420000000100000011#80 = .error .shiftMultiplier := by decide

/-- The words of R52: `MKDIV d` is `{01, 0, d}`, `DIV S(2, 0), -17` and `DIV M(0x92492493, 2, 1), -100`. -/
theorem test_encode :
    encode (.mkdiv 0x80000000#32) = 0x01000000000080000000#80 ∧
    encode (.divS false 2#5 0xFFFFFFEF#32) = 0x024200000000FFFFFFEF#80 ∧
    encode (.divM true 2#5 0x92492493#32 0xFFFFFF9C#32) = 0x02A292492493FFFFFF9C#80 := by decide

/-- A word of each form matches its mask (R51). -/
theorem test_masks :
    encode (.mkdiv 7#32) &&& formMask (.mkdiv 7#32) = formMatch (.mkdiv 7#32) ∧
    encode (.divS true 31#5 5#32) &&& formMask (.divS true 31#5 5#32) = formMatch (.divS true 31#5 5#32) ∧
    encode (.divM true 31#5 5#32 5#32) &&& formMask (.divM true 31#5 5#32 5#32) =
      formMatch (.divM true 31#5 5#32 5#32) := by decide

/-! ### Single steps -/

/-- The state a step answers, if it answers one. -/
def nextState? (o : Host.Outcome State Fault Refusal) : Option State :=
  match o with
  | .next t => some t
  | .fault _ => none
  | .refused _ => none

theorem next_of_isSome {o : Host.Outcome State Fault Refusal} (h : (nextState? o).isSome = true) :
    ∃ t, o = .next t := by
  cases o with
  | next t => exact ⟨t, rfl⟩
  | fault f => simp [nextState?] at h
  | refused r => simp [nextState?] at h

theorem next_of_eq {o : Host.Outcome State Fault Refusal} {p : State → Bool}
    (h : ((nextState? o).map p).getD false = true) : ∃ t, o = .next t ∧ p t = true := by
  cases o with
  | next t => exact ⟨t, rfl, h⟩
  | fault f => simp [nextState?] at h
  | refused r => simp [nextState?] at h

/-- The reset state with a word placed where the next step takes it. -/
def placed (w : Nat) : State := State.reset.withFetchWord 80 w

/-- What one step answers to a word placed after reset: phase, fault status, port. -/
def answer (w : Nat) : Option (Phase × BitVec 4 × Option RespWord) :=
  (nextState? (step (placed w))).map fun t => (t.ph, t.fsr, t.port)

/-- 40_dispatcher.md R60, its example. -/
theorem test_mkdiv_7 : answer 0x01000000000000000007 = some (.idle, 0#4, some 0x008292492493#48) := by decide

/-- 40_dispatcher.md R73: `INT_MIN` is a shift by 31. -/
theorem test_mkdiv_intMin : answer 0x01000000000080000000 = some (.idle, 0#4, some 0x007F00000000#48) := by decide

/-- 41_shift_strategy.md R80, its example: `-17 / 4 = -4`. -/
theorem test_divS_minus_17_by_4 : answer 0x024200000000FFFFFFEF = some (.idle, 0#4, some 0x0000FFFFFFFC#48) := by
  decide

/-- 40_dispatcher.md R74: `INT_MIN / -1` wraps and is flagged. -/
theorem test_divS_overflow : answer 0x02600000000080000000 = some (.idle, 0#4, some 0x010080000000#48) := by decide

/-- 40_dispatcher.md R68, its example: `100 / 7 = 14`. -/
theorem test_divM_100_by_7 : answer 0x02829249249300000064 = some (.idle, 0#4, some 0x00000000000E#48) := by decide

/-- 95_test_vectors.md section 2.5: `INT_MIN / -100 = 21474836`. -/
theorem test_divM_intMin_by_minus_100 :
    answer 0x02A551EB851F80000000 = some (.idle, 0#4, some 0x00000147AE14#48) := by decide

/-- 95_test_vectors.md section 2.6: one word for each fault. -/
theorem test_faults :
    answer 0x01000000000000000000 = some (.halt, 1#4, some 0x100000000000#48) ∧
    answer 0x01800000000000000000 = some (.halt, 2#4, some 0x200000000000#48) ∧
    answer 0x02C29249249300000064 = some (.halt, 3#4, some 0x300000000000#48) := by decide

/-- `MKDIV 7` accepted (97_programs.md P5, first row). -/
def busy7 : State := acceptStep 0x01000000000000000007#80 State.reset

/-- `MKDIV 7` after two iterations. -/
def busy7' : State := { busy7 with drv := drvIterate (drvIterate busy7.drv) }

/-- `MKDIV 7` after three iterations, its derivation ended. -/
def busy7'' : State := { busy7 with drv := drvIterate busy7'.drv }

/-- A block halted by `MKDIV 0`. -/
def halted : State := raiseFault .divisorZero (acceptWord 0x01000000000000000000#80 State.reset)

/-- 97_programs.md P5, the row of `accept`. -/
theorem test_accept_starts_derivation :
    (busy7.ph, busy7.drv) =
      (.busy, ⟨true, 7#33, 0x7FFFFFFD#33, 1#33, 3#33, 0x12492492#33, 2#33, 0#33, 31#6⟩) := by decide

/-- 97_programs.md P5, the row of `iterate` 2. -/
theorem test_iterate :
    busy7'.drv = ⟨true, 7#33, 0x7FFFFFFD#33, 4#33, 12#33, 0x49249249#33, 1#33, 6#33, 33#6⟩ := by decide

/-- 97_programs.md P5, the row of `respond`. -/
theorem test_respond_after_derivation :
    (nextState? (step busy7'')).map (fun t => (t.ph, t.port, t.drv.run)) =
      some (.idle, some 0x008292492493#48, false) := by decide

/-- 97_programs.md P4: a halted block does not serve, and reset brings it back. -/
theorem test_halted_block_does_not_serve :
    nextState? (step { halted with inbox := [.run 0x01000000000000000003#80] }) = some halted := by decide

theorem test_reset_leaves_halt :
    (nextState? (step { halted with inbox := [.reset] })).map (fun t => (t.ph, t.fsr, t.drv.run, t.port)) =
      some (.idle, 0#4, false, none) := by decide

/-! ### Witnesses -/

theorem witness_ResetStepClearsEveryState :
    { halted with inbox := [.reset, .tick] }.inbox = HostEvent.reset :: [.tick] := by decide

theorem witness_OnlyResetLeavesHalt :
    halted.ph = .halt ∧ ∃ t, step { halted with inbox := [.reset] } = .next t ∧ decide (t.ph ≠ .halt) = true :=
  ⟨by decide, next_of_eq (by decide)⟩

theorem witness_HaltedBlockIsUnchangedUntilReset :
    halted.ph = .halt ∧ HostEvent.reset ∉ { halted with inbox := [.run 7#80, .tick] }.inbox := by decide

/-- One word that decodes and one that does not. -/
theorem witness_StepRunsTheDecodedInstruction :
    (placed 0x01000000000000000007).ph = .idle ∧
    (placed 0x01000000000000000007).inbox = .run 0x01000000000000000007#80 :: [] ∧
    decode 0x01000000000000000007#80 = .ok (.mkdiv 7#32) ∧
    (placed 0x03000000000000000007).inbox = .run 0x03000000000000000007#80 :: [] ∧
    decode 0x03000000000000000007#80 = .error .unknownOpcode := by decide

theorem witness_idle : State.reset.ph = .idle := by decide

theorem witness_CommandIsTurnedAwayUnlessIdle : busy7.ph ≠ .idle ∧ halted.ph ≠ .idle := by decide

theorem witness_BusyBlockDoesNotLookAtTheOffer :
    busy7.ph = .busy ∧ ∃ t, step { busy7 with inbox := [.offer 0x01000000000000000003#80] } = .next t :=
  ⟨by decide, next_of_isSome (by decide)⟩

theorem witness_AcceptStepTakesAnyWord :
    State.reset.ph = .idle ∧ { State.reset with inbox := [.offer 7#80] }.inbox = HostEvent.offer 7#80 :: [] := by decide

theorem witness_ResetAbandonsTheCommandInProgress :
    busy7.ph = .busy ∧ { busy7 with inbox := [.reset, .run 7#80] }.inbox = [HostEvent.reset, .run 7#80] := by decide

/-- Both ways `FSR` changes. -/
theorem witness_FsrChangesOnlyByFaultOrReset :
    (∃ t, step (placed 0x01000000000000000000) = .next t ∧
      decide (t.fsr ≠ (placed 0x01000000000000000000).fsr) = true) ∧
    (∃ t, step { halted with inbox := [.reset] } = .next t ∧ decide (t.fsr ≠ halted.fsr) = true) :=
  ⟨next_of_eq (by decide), next_of_eq (by decide)⟩

/-- `CMDR` changes by a whole command, by an accept and by reset. -/
theorem witness_CmdrIsWrittenOnlyByAccept :
    (∃ t, step (placed 0x01000000000000000007) = .next t ∧
      decide (t.cmdr ≠ (placed 0x01000000000000000007).cmdr) = true) ∧
    (∃ t, step { State.reset with inbox := [.offer 7#80] } = .next t ∧
      decide (t.cmdr ≠ State.reset.cmdr) = true) ∧
    (∃ t, step { busy7 with inbox := [.reset] } = .next t ∧ decide (t.cmdr ≠ busy7.cmdr) = true) :=
  ⟨next_of_eq (by decide), next_of_eq (by decide), next_of_eq (by decide)⟩

/-- A word for each of the seven lines of R50, in order (line 3 with `d = 0` and `d != 0`, line 4 with both tags). -/
theorem witness_DecoderFollowsTheSevenLines :
    State.reset.ph = .idle ∧
    decode 0x00000000000000000000#80 = .error .unknownOpcode ∧
    decode 0x01000000000100000007#80 = .error .mkdivReservedBits ∧
    decode 0x01000000000000000000#80 = .ok (.mkdiv 0#32) ∧ decode 0x010000000000FFFFFFFF#80 = .ok (.mkdiv 0xFFFFFFFF#32) ∧
    decode 0x02000000000000000064#80 = .error .reservedTag ∧ decode 0x02C00000000000000064#80 = .error .reservedTag ∧
    decode 0x02420000000100000011#80 = .error .shiftMultiplier ∧
    decode 0x027F00000000FFFFFFFF#80 = .ok (.divS true 31#5 0xFFFFFFFF#32) ∧
    decode 0x02BFFFFFFFFF7FFFFFFF#80 = .ok (.divM true 31#5 0xFFFFFFFF#32 0x7FFFFFFF#32) := by decide

/-- A word of each form, and one of none. -/
theorem witness_FormsAreTheirMasks :
    (0x010000000000FFFFFFFF#80 : CmdWord) &&& 0xFFFFFFFFFFFF00000000#80 = 0x01000000000000000000#80 ∧
    (0x027F00000000FFFFFFFF#80 : CmdWord) &&& 0xFFC0FFFFFFFF00000000#80 = 0x02400000000000000000#80 ∧
    (0x02BFFFFFFFFF7FFFFFFF#80 : CmdWord) &&& 0xFFC00000000000000000#80 = 0x02800000000000000000#80 ∧
    (0x02420000000100000011#80 : CmdWord) &&& 0xFFFFFFFFFFFF00000000#80 ≠ 0x01000000000000000000#80 ∧
    (0x02420000000100000011#80 : CmdWord) &&& 0xFFC0FFFFFFFF00000000#80 ≠ 0x02400000000000000000#80 ∧
    (0x02420000000100000011#80 : CmdWord) &&& 0xFFC00000000000000000#80 ≠ 0x02800000000000000000#80 := by decide

theorem witness_DecodeOfEncodeIsTheInstruction :
    (Instr.mkdiv 7#32).wellFormed = true ∧ (Instr.divS true 31#5 0#32).wellFormed = true ∧
    (Instr.divM true 31#5 0xFFFFFFFF#32 0#32).wellFormed = true := by decide

theorem witness_EncodeOfDecodeIsTheWord : decode 0x02BFFFFFFFFF7FFFFFFF#80 =
    .ok (.divM true 31#5 0xFFFFFFFF#32 0x7FFFFFFF#32) := by decide

/-- A MAGIC descriptor, a SHIFT descriptor, and the ill-formed ones: both tags, and a multiplier of 1. -/
theorem witness_DivExecutesExactlyWellFormedDescriptors :
    State.reset.ph = .idle ∧
    (0xBFFFFFFFFF#40).extractLsb' 38 2 = 0b10#2 ∧
    ((0x7F00000000#40).extractLsb' 38 2 = 0b01#2 ∧ (0x7F00000000#40).extractLsb' 0 32 = 0#32) ∧
    (0x0000000000#40).extractLsb' 38 2 = 0b00#2 ∧ (0xC000000000#40).extractLsb' 38 2 = 0b11#2 ∧
    ¬((0x4000000001#40).extractLsb' 38 2 = 0b10#2 ∨
      ((0x4000000001#40).extractLsb' 38 2 = 0b01#2 ∧ (0x4000000001#40).extractLsb' 0 32 = 0#32)) := by decide

/-- One word for each fault and one that takes none. -/
theorem witness_FaultsAreRaisedExactlyAsTabled :
    (placed 0x01000000000000000000).ph = .idle ∧ (placed 0x01000000000000000000).fsr = 0#4 ∧
    (placed 0x01000000000000000000).inbox = .run 0x01000000000000000000#80 :: [] ∧
    commandFault 0x01000000000000000000#80 = some .divisorZero ∧
    commandFault 0x03000000000000000007#80 = some .illegalCmd ∧
    commandFault 0x01800000000000000000#80 = some .illegalCmd ∧
    commandFault 0x02420000000100000011#80 = some .badDesc ∧
    commandFault 0x01000000000000000007#80 = none := by decide

/-- Its three clauses: a faulting word offered, a faulting word in progress, a halted block. -/
theorem witness_FaultEntryHaltsWithTheCause :
    ((placed 0x02C29249249300000064).ph = .idle ∧
      (placed 0x02C29249249300000064).inbox = .run 0x02C29249249300000064#80 :: [] ∧
      commandFault 0x02C29249249300000064#80 = some .badDesc) ∧
    ((acceptStep 0x01000000000000000000#80 State.reset).ph = .busy ∧
      (acceptStep 0x01000000000000000000#80 State.reset).drv.run = false ∧
      commandFault (acceptStep 0x01000000000000000000#80 State.reset).cmdr = some .divisorZero) ∧
    (halted.ph = .halt ∧ HostEvent.reset ∉ halted.inbox) := by decide

/-- The least and the greatest magnitude of each class of divisor, for the statements about `MKDIV`. -/
theorem witness_divisors :
    State.reset.ph = .idle ∧
    ((1#32).toInt.natAbs = 2 ^ 0 ∧ (0xFFFFFFFF#32).toInt.natAbs = 2 ^ 0 ∧ intMin.toInt.natAbs = 2 ^ 31) ∧
    (3#32 ≠ 0#32 ∧ ∀ k, k < 32 → (3#32).toInt.natAbs ≠ 2 ^ k) ∧
    (intMax ≠ 0#32 ∧ ∀ k, k < 32 → intMax.toInt.natAbs ≠ 2 ^ k) := by decide

theorem witness_RoutingFollowsThePowerOfTwo :
    State.reset.ph = .idle ∧ intMin ≠ 0#32 ∧ (∃ k, k ≤ 31 ∧ intMin.toInt.natAbs = 2 ^ k) ∧
    3#32 ≠ 0#32 ∧ ¬∃ k, k ≤ 31 ∧ (3#32).toInt.natAbs = 2 ^ k :=
  ⟨by decide, by decide, ⟨31, by decide, by decide⟩, by decide, by
    rintro ⟨k, hk, h⟩
    exact witness_divisors.2.2.1.2 k (by omega) h⟩

theorem witness_MkdivOfPowerOfTwoResponds :
    State.reset.ph = .idle ∧ 31 ≤ 31 ∧ intMin.toInt.natAbs = 2 ^ 31 ∧ (0xFFFFFFFF#32).toInt.natAbs = 2 ^ 0 := by decide

theorem witness_MkdivOfGeneralDivisorResponds :
    State.reset.ph = .idle ∧ intMax ≠ 0#32 ∧ ¬∃ k, k ≤ 31 ∧ intMax.toInt.natAbs = 2 ^ k :=
  ⟨by decide, by decide, by
    rintro ⟨k, hk, h⟩
    exact witness_divisors.2.2.2.2 k (by omega) h⟩

theorem witness_MagnitudeAndHighestBitOfTheDivisor : intMin ≠ 0#32 ∧ highestBit (magnitude intMin) < 32 ∧
    highestBit (magnitude 1#32) < 1 := by decide

theorem witness_DescriptorDeterminesTheDivisor :
    State.reset.ph = .idle ∧ 3#32 ≠ 0#32 ∧ 4#32 ≠ 0#32 ∧
    (∃ t, exec (.mkdiv 3#32) State.reset = .next t) ∧ (∃ t, exec (.mkdiv 4#32) State.reset = .next t) :=
  ⟨by decide, by decide, by decide, next_of_isSome (by decide), next_of_isSome (by decide)⟩

/-- The least and the greatest magnitude of the domain, for the statements about `derive`. -/
theorem witness_domain : inMagicDomain (3#32).toNat = true ∧ inMagicDomain intMax.toNat = true := by decide

/-- `ad = 7`, `k = 3`: the loop goes on after iterations 1 and 2. -/
theorem witness_LoopInvariantHolds :
    inMagicDomain (7#32).toNat = true ∧
    ∀ j, 1 ≤ j → j < 3 → drvContinues (drvIterate^[j] (drvStart 7#32 Drv.reset)) = true := by
  refine ⟨by decide, fun j h1 h2 => ?_⟩
  interval_cases j <;> decide

theorem witness_drvHolds_start : DrvHolds 7 busy7.drv where
  domain := by decide
  adIs := by decide
  ancIs := by decide
  pLow := by decide
  pHigh := by decide
  q1Is := by decide
  r1Is := by decide
  q2Is := by decide
  r2Is := by decide
  deltaIs h := absurd h (by decide)
  continuedBefore j h1 h2 := absurd (lt_of_le_of_lt h1 h2) (by decide)

theorem witness_drvHolds : DrvHolds 7 busy7'.drv where
  domain := by decide
  adIs := by decide
  ancIs := by decide
  pLow := by decide
  pHigh := by decide
  q1Is := by decide
  r1Is := by decide
  q2Is := by decide
  r2Is := by decide
  deltaIs _ := by decide
  continuedBefore j h1 h2 := by
    have hp : busy7'.drv.p.toNat = 33 := by decide
    rw [hp] at h2
    interval_cases j
    decide

theorem witness_IterateStepIsExact :
    busy7'.ph = .busy ∧ busy7'.drv.run = true ∧ drvEnded busy7'.drv = false ∧ DrvHolds 7 busy7'.drv ∧
    ∀ rest, busy7'.inbox ≠ .reset :: rest :=
  ⟨by decide, by decide, by decide, witness_drvHolds, fun rest h => by cases h⟩

theorem witness_LoopConditionComparesPowers : DrvHolds 7 busy7'.drv ∧ 32 ≤ busy7'.drv.p.toNat :=
  ⟨witness_drvHolds, by decide⟩

/-- 42_magic_derivation.md R90, its example, and the least magnitude. -/
theorem witness_derive : derive 7 = some (0x92492493#32, 2) ∧ derive 3 = some (0x55555556#32, 0) := by decide

/-- Its third clause: a divisor of the general class. -/
theorem witness_DeriveIsNeverGivenAnOutsideMagnitude :
    classify 0xFFFFFFFD#32 = .general true 3#32 ∧ classify intMax = .general false intMax := by decide

/-- Both ends of the range of `sh`, a negative and a non-negative dividend, for the statements about U_SHIFT. -/
theorem witness_shift_ranges :
    1 ≤ 1 ∧ 1 ≤ 31 ∧ 31 ≤ 31 ∧ intMin.toInt < 0 ∧ 0 ≤ (0#32).toInt ∧ 0#5 ≠ 1#5 ∧ (31#5).toNat = 31 := by decide

/-- The one input that overflows, and inputs beside it that do not. -/
theorem witness_OverflowFlagMarksTheWrappedQuotient :
    shiftOverflow 0#5 true intMin = true ∧ shiftOverflow 1#5 true intMin = false ∧
    shiftOverflow 0#5 false intMin = false ∧ shiftOverflow 0#5 true intMax = false := by decide

/-- A multiplier with bit 31 set and one without, a negative and a non-negative dividend. -/
theorem witness_general_ranges :
    (0x80000000#32 : Word).getLsbD 31 = true ∧ (0x7FFFFFFF#32 : Word).getLsbD 31 = false ∧
    (0xFFFFFFFF#32 : Word).toInt < 0 ∧ 0 ≤ (0#32 : Word).toInt := by decide

/-- The excluded pair's two neighbours are in the range of the statement. -/
theorem witness_MkdivThenDivIsTruncatingDivision :
    State.reset.ph = .idle ∧ 0xFFFFFFFF#32 ≠ 0#32 ∧ ¬(0xFFFFFFFF#32 = 0xFFFFFFFF#32 ∧ intMax = intMin) ∧
    ¬(1#32 = 0xFFFFFFFF#32 ∧ intMin = intMin) := by decide

/-- A command of each of its clauses. -/
theorem witness_EveryResponseIsAStatusAndAPayload :
    State.reset.ph = .idle ∧ commandFault 0x01000000000000000000#80 ≠ none ∧
    decode 0x01000000000080000000#80 = .ok (.mkdiv intMin) ∧ intMin.toInt.natAbs = 2 ^ 31 ∧
    decode 0x01000000000000000003#80 = .ok (.mkdiv 3#32) ∧ derive (3#32).toInt.natAbs = some (0x55555556#32, 0) ∧
    decode 0x02600000000080000000#80 = .ok (.divS true 0#5 0x80000000#32) ∧
    decode 0x02BFFFFFFFFF7FFFFFFF#80 = .ok (.divM true 31#5 0xFFFFFFFF#32 0x7FFFFFFF#32) := by decide

theorem witness_CommandSequenceIsAnsweredInOrder :
    State.reset.ph = .idle ∧
    ∀ c ∈ [0x01000000000000000007#80, 0x02829249249300000064#80], commandFault c = none := by
  refine ⟨by decide, ?_⟩
  rw [List.forall_mem_cons, List.forall_mem_singleton]
  decide

theorem general7 : generalCommand 0x01000000000000000007#80 = some (false, 7#32) := by decide

/-- The invariant holds in the middle of a derivation. -/
theorem witness_inv_busy : busy7'.Inv where
  haltIffFault := by decide
  fsrCode := by decide
  runBusy _ := by decide
  runIffGeneral _ := by decide
  derivation _ neg ad h := by
    have h' : some (false, 7#32) = some (neg, ad) := general7.symm.trans h
    cases h'
    exact witness_drvHolds
  busyNoResponse _ := by decide
  portLastSent r h := by cases h

/-- And in an idle block that has answered a command. -/
theorem witness_inv_idle : (respond 0x00000000000E#48 State.reset).Inv where
  haltIffFault := by decide
  fsrCode := by decide
  runBusy h := by cases h
  runIffGeneral h := by cases h
  derivation h := by cases h
  busyNoResponse h := by cases h
  portLastSent r h := by cases h; decide

theorem witness_EveryStepKeepsTheInvariant : busy7'.Inv ∧ ∃ t, step busy7' = .next t :=
  ⟨witness_inv_busy, next_of_isSome (by decide)⟩

theorem witness_SafeHostsNeverHaltTheBlock : busy7'.Safe ∧ ∃ t, step busy7' = .next t :=
  ⟨⟨witness_inv_busy, by decide, fun _ => by decide, by decide⟩, next_of_isSome (by decide)⟩

theorem witness_CollapsedStepIsTheSmallSteps :
    (respond 0x00000000000E#48 State.reset).Inv ∧ (respond 0x00000000000E#48 State.reset).ph = .idle ∧
    iterationsOf 0x01000000000000000007#80 = 3 :=
  ⟨witness_inv_idle, by decide, by decide⟩

theorem witness_CommandInProgressIsAnswered :
    busy7'.Inv ∧ busy7'.ph = .busy ∧ HostEvent.reset ∉ busy7'.inbox :=
  ⟨witness_inv_busy, by decide, by decide⟩

theorem witness_PrimitivesMeetTheirDefinitions : 0 ≤ 31 ∧ 31 ≤ 31 ∧ intMin ≠ 0#32 ∧ 1#32 ≠ 0#32 := by decide

end Sys2Proof.Tests.Slice0
end

section
/-! PROOFS. The 32-bit primitives against their definitions over integers (00_scope.md R6). -/

namespace Sys2Proof.Machine

theorem add32_eq_ofNat (a b : Word) : add32 a b = BitVec.ofNat 32 (a.toNat + b.toNat) := by
  apply BitVec.eq_of_toNat_eq
  rw [add32, BitVec.toNat_add, BitVec.toNat_ofNat]

theorem sub32_eq_ofInt (a b : Word) : sub32 a b = BitVec.ofInt 32 ((a.toNat : Int) - b.toNat) := by
  apply BitVec.eq_of_toNat_eq
  have := a.isLt
  have := b.isLt
  rw [sub32, BitVec.toNat_sub, BitVec.toNat_ofInt]
  omega

theorem neg32_eq_ofNat (a : Word) : neg32 a = BitVec.ofNat 32 (2 ^ 32 - a.toNat) := by
  apply BitVec.eq_of_toNat_eq
  rw [neg32, BitVec.toNat_neg, BitVec.toNat_ofNat]

theorem asr32_eq_ofInt (a : Word) (k : Nat) : asr32 a k = BitVec.ofInt 32 (a.toInt / 2 ^ k) := by
  rw [← asr32_toInt, BitVec.ofInt_toInt]

theorem lsr32_eq_ofNat (a : Word) (k : Nat) : lsr32 a k = BitVec.ofNat 32 (a.toNat / 2 ^ k) := by
  rw [← lsr32_toNat, BitVec.ofNat_toNat, BitVec.setWidth_eq]

theorem shl32_eq_ofNat (a : Word) (k : Nat) : shl32 a k = BitVec.ofNat 32 (a.toNat * 2 ^ k) := by
  apply BitVec.eq_of_toNat_eq
  rw [shl32, BitVec.toNat_shiftLeft, BitVec.toNat_ofNat, Nat.shiftLeft_eq]

/-- The high half of the product is its floor by `2^32`: no bit of the product above bit 63 is read. -/
theorem mulhs32_eq_ofInt (a b : Word) : mulhs32 a b = BitVec.ofInt 32 (a.toInt * b.toInt / 2 ^ 32) := by
  apply BitVec.eq_of_toNat_eq
  rw [mulhs32, mul64s, BitVec.extractLsb'_toNat, BitVec.toNat_ofInt, BitVec.toNat_ofInt, Nat.shiftRight_eq_div_pow]
  generalize a.toInt * b.toInt = x
  omega

/-- The low `k` bits of `a`, if not all zero, have their highest set bit right below the leading zeros. -/
theorem leadingZeros_bounds (a : Word) (k : Nat) (h : a.toNat % 2 ^ k ≠ 0) :
    leadingZeros a k < k ∧ 2 ^ (k - 1 - leadingZeros a k) ≤ a.toNat % 2 ^ k ∧
      a.toNat % 2 ^ k < 2 ^ (k - leadingZeros a k) := by
  induction k with
  | zero => simp [Nat.mod_one] at h
  | succ k ih =>
    have hmod : a.toNat % 2 ^ (k + 1) = a.toNat % 2 ^ k + 2 ^ k * (a.getLsbD k).toNat := by
      rw [Nat.mod_pow_succ, BitVec.getLsbD, Nat.toNat_testBit]
    have hlt : a.toNat % 2 ^ (k + 1) < 2 ^ (k + 1) := Nat.mod_lt _ (Nat.two_pow_pos _)
    cases hb : a.getLsbD k with
    | true =>
      rw [leadingZeros, hb, if_pos rfl]
      rw [hb, Bool.toNat_true] at hmod
      exact ⟨by omega, by simp only [Nat.sub_zero, Nat.add_sub_cancel]; omega, hlt⟩
    | false =>
      have hmod' : a.toNat % 2 ^ (k + 1) = a.toNat % 2 ^ k := by simpa [hb] using hmod
      rw [hmod'] at h ⊢
      obtain ⟨hz, hlo, hhi⟩ := ih h
      rw [leadingZeros, hb, if_neg Bool.false_ne_true]
      rw [show k + 1 - 1 - (leadingZeros a k + 1) = k - 1 - leadingZeros a k by omega,
        show k + 1 - (leadingZeros a k + 1) = k - leadingZeros a k by omega]
      exact ⟨by omega, hlo, hhi⟩

theorem clz32_bounds {a : Word} (h : a ≠ 0#32) :
    clz32 a ≤ 31 ∧ 2 ^ (31 - clz32 a) ≤ a.toNat ∧ a.toNat < 2 ^ (32 - clz32 a) := by
  have hmod : a.toNat % 2 ^ 32 = a.toNat := Nat.mod_eq_of_lt a.isLt
  have h0 : a.toNat % 2 ^ 32 ≠ 0 := by
    rw [hmod]
    exact fun h0 => h (BitVec.eq_of_toNat_eq h0)
  obtain ⟨hz, hlo, hhi⟩ := leadingZeros_bounds a 32 h0
  rw [hmod] at hlo hhi
  exact ⟨Nat.le_of_lt_succ hz, hlo, hhi⟩

/-- Settles O60: each primitive by its lemma above; `mul64s` is defined as its clause says. -/
theorem primitivesMeetTheirDefinitions : Obligations.PrimitivesMeetTheirDefinitions := by
  intro a b k _
  exact ⟨add32_eq_ofNat a b, sub32_eq_ofInt a b, neg32_eq_ofNat a, asr32_eq_ofInt a k, lsr32_eq_ofNat a k,
    shl32_eq_ofNat a k, fun h => (clz32_bounds h).2, rfl, mulhs32_eq_ofInt a b⟩

end Sys2Proof.Machine
end

section
/-! PROOFS. A legal word is the encoding of what it decodes to (30_encoding.md R41, R43, R50, R52). -/

namespace Sys2Proof.Machine

/-- The fields of a command word are all of it (R41, R43). -/
theorem commandWord_commandFields (c : CmdWord) : commandWord (commandFields c) = c := by
  apply BitVec.eq_of_getLsbD_eq
  intro i hi
  simp only [commandWord, commandFields, descWord, descFields, BitVec.getLsbD_append, BitVec.getLsbD_extractLsb',
    BitVec.getLsbD_ofBool]
  grind

/-- What the seven lines of R50 accept, the instruction's fields are the fields read. -/
theorem instrFields_of_decodeFields {f : CommandFields} {i : Instr} (h : decodeFields f = .ok i) :
    instrFields i = f := by
  obtain ⟨opc, ⟨tag, neg, sh, mc⟩, operand⟩ := f
  unfold decodeFields at h
  split at h
  · cases h
  · next hopc =>
    split at h
    · next hmk =>
      split at h
      · cases h
      · cases h; simp_all [instrFields]
    · next hmk =>
      have hdiv : opc = opcDiv := by simp_all
      split at h
      · split at h
        · cases h
        · cases h; simp_all [instrFields]
      · split at h
        · cases h; simp_all [instrFields]
        · cases h

theorem encode_of_decode {c : CmdWord} {i : Instr} (h : decode c = .ok i) : encode i = c := by
  rw [encode, instrFields_of_decodeFields h, commandWord_commandFields]

end Sys2Proof.Machine
end

section
/-! PROOFS. The classification of a divisor (40_dispatcher.md R62 to R64): U_MAGIC is given no magnitude outside its
domain (42_magic_derivation.md R101). -/

namespace Sys2Proof.Machine

/-- The magnitude vector, read unsigned, is the absolute value of the divisor, `INT_MIN` included (R62). -/
theorem magnitude_toNat (d : Word) : (magnitude d).toNat = d.toInt.natAbs := by
  have hd := toInt_eq_toNat_sub d
  have hlt := d.isLt
  have hb := word_bounds d
  unfold magnitude divisorNeg
  cases hneg : d.getLsbD 31 with
  | true =>
    have h31 : d.toInt < 0 := of_decide_eq_true ((getLsbD_31_eq d).symm.trans hneg)
    rw [hneg, if_pos rfl] at hd
    rw [if_pos rfl, neg32, BitVec.toNat_neg]
    omega
  | false =>
    rw [hneg, if_neg Bool.false_ne_true] at hd
    rw [if_neg Bool.false_ne_true]
    omega

theorem magnitude_le (d : Word) : (magnitude d).toNat ≤ 2 ^ 31 := by
  have := word_bounds d
  rw [magnitude_toNat]
  omega

theorem magnitude_ne_zero {d : Word} (h : d ≠ 0#32) : magnitude d ≠ 0#32 := by
  intro h0
  have hn := magnitude_toNat d
  rw [h0, BitVec.toNat_zero] at hn
  exact h (BitVec.eq_of_toInt_eq (by simpa using hn.symm))

/-- The highest set bit of a word that reads as a power of two is its exponent (R63, R64). -/
theorem highestBit_of_toNat_eq_two_pow {a : Word} {k : Nat} (h : a.toNat = 2 ^ k) : highestBit a = k := by
  have h0 : a ≠ 0#32 := by
    rintro rfl
    exact absurd h.symm (Nat.two_pow_pos k).ne'
  obtain ⟨hz, hlo, hhi⟩ := clz32_bounds h0
  rw [h] at hlo hhi
  have hlo' := (Nat.pow_le_pow_iff_right Nat.one_lt_two).mp hlo
  have hhi' := (Nat.pow_lt_pow_iff_right Nat.one_lt_two).mp hhi
  unfold highestBit
  omega

/-- A general divisor is non-zero, its magnitude goes to U_MAGIC, and that magnitude is no power of two. -/
theorem classify_eq_general {d ad : Word} {neg : Bool} (h : classify d = .general neg ad) :
    d ≠ 0#32 ∧ neg = divisorNeg d ∧ ad = magnitude d ∧ ∀ k, ad.toNat ≠ 2 ^ k := by
  unfold classify at h
  split at h
  next => cases h
  next hd =>
    dsimp only at h
    split at h
    next => cases h
    next hk =>
      cases h
      refine ⟨hd, rfl, rfl, fun k hpow => hk ?_⟩
      rw [highestBit_of_toNat_eq_two_pow hpow, shl32_eq_ofNat, show (1#32).toNat = 1 from rfl, Nat.one_mul, ← hpow,
        BitVec.ofNat_toNat, BitVec.setWidth_eq]

theorem inMagicDomain_of_classify {d ad : Word} {neg : Bool} (h : classify d = .general neg ad) :
    inMagicDomain ad.toNat = true := by
  obtain ⟨hd, -, rfl, hpow⟩ := classify_eq_general h
  have h0 : (magnitude d).toNat ≠ 0 := fun h0 => magnitude_ne_zero hd (BitVec.eq_of_toNat_eq h0)
  have h31 := magnitude_le d
  have hne1 := hpow 0
  have hne2 := hpow 1
  have hne31 := hpow 31
  exact (inMagicDomain_iff _).mpr ⟨by omega, by omega, fun k _ => hpow k⟩

end Sys2Proof.Machine
end

section
/-! PROOFS. U_MAGIC on the 33-bit registers computes `derive` over the naturals (42_magic_derivation.md R90 to R103).
`drvVars` reads the registers as naturals. From `start` the registers satisfy the invariant `DrvHolds` (R99); under it no
`iterate` wraps, so each is one `magicIter`, and the invariant bounds `P`, so the loop ends. -/

namespace Sys2Proof.Machine

/-- The registers of a derivation read as the naturals of R90. -/
def drvVars (r : Drv) : MagicVars :=
  { q1 := r.q1.toNat, r1 := r.r1.toNat, q2 := r.q2.toNat, r2 := r.r2.toNat, p := r.p.toNat, delta := r.delta.toNat }

/-- The constant `anc` is positive and fits in 31 bits (R92). -/
theorem ancOf_bounds {ad : Nat} (h : inMagicDomain ad = true) : 0 < ancOf ad ∧ ancOf ad < 2 ^ 31 := by
  obtain ⟨h3, h31, -⟩ := (inMagicDomain_iff ad).mp h
  have hmod : 2 ^ 31 % ad < ad := Nat.mod_lt _ (by omega)
  unfold ancOf two31
  omega

/-! ### Start -/

theorem drvStart_ad_toNat (ad : Word) (r : Drv) : (drvStart ad r).ad.toNat = ad.toNat := by
  have := ad.isLt
  rw [drvStart_ad, BitVec.toNat_setWidth]
  omega

theorem drvStart_anc_toNat {ad : Word} (r : Drv) (h : inMagicDomain ad.toNat = true) :
    (drvStart ad r).anc.toNat = ancOf ad.toNat := by
  obtain ⟨h3, h31, -⟩ := (inMagicDomain_iff _).mp h
  have hmod : 2 ^ 31 % ad.toNat < ad.toNat := Nat.mod_lt _ (by omega)
  rw [drvStart_anc, BitVec.toNat_sub, BitVec.toNat_sub, BitVec.toNat_umod, drvStart_ad_toNat]
  unfold ancOf two31
  norm_num at hmod ⊢
  omega

/-- The start value of a quotient and remainder register pair (R93): nothing wraps. -/
theorem start_quotient_remainder (m : Reg33) :
    (BitVec.ofNat 33 two31 / m).toNat = 2 ^ 31 / m.toNat ∧
    (BitVec.ofNat 33 two31 - BitVec.ofNat 33 two31 / m * m).toNat = 2 ^ 31 % m.toNat := by
  have hq : (BitVec.ofNat 33 two31 / m).toNat = 2 ^ 31 / m.toNat := by
    rw [BitVec.toNat_udiv, BitVec.toNat_ofNat, Nat.mod_eq_of_lt (by norm_num)]
  have hdm := Nat.div_add_mod' (2 ^ 31) m.toNat
  refine ⟨hq, ?_⟩
  rw [BitVec.toNat_sub, BitVec.toNat_mul, hq, BitVec.toNat_ofNat]
  generalize 2 ^ 31 / m.toNat * m.toNat = x at hdm
  generalize 2 ^ 31 % m.toNat = y at hdm
  unfold two31
  omega

/-- The registers at the start of a derivation satisfy the loop invariant (R93, R99). -/
theorem drvStart_holds {ad : Word} (r : Drv) (h : inMagicDomain ad.toNat = true) :
    DrvHolds ad.toNat (drvStart ad r) := by
  have hanc := drvStart_anc_toNat r h
  have had := drvStart_ad_toNat ad r
  obtain ⟨h3, -, -⟩ := (inMagicDomain_iff _).mp h
  obtain ⟨hq1, hr1⟩ := start_quotient_remainder (drvStart ad r).anc
  obtain ⟨hq2, hr2⟩ := start_quotient_remainder (drvStart ad r).ad
  rw [hanc] at hq1 hr1
  rw [had] at hq2 hr2
  have hp : (drvStart ad r).p.toNat = 31 := rfl
  exact {
    domain := h
    adIs := had
    ancIs := hanc
    pLow := by omega
    pHigh := by omega
    q1Is := by rw [hp]; exact hq1
    r1Is := by rw [hp]; exact hr1
    q2Is := by rw [hp]; exact hq2
    r2Is := by rw [hp]; exact hr2
    deltaIs := by omega
    continuedBefore := by omega }

/-! ### The loop condition -/

/-- Comparing quotient and remainder by `m` with `d` and 0 compares the dividend with `m * d` (R95). -/
theorem div_lt_or_eq_iff {x m d : Nat} (hm : 0 < m) : x / m < d ∨ (x / m = d ∧ x % m = 0) ↔ x ≤ m * d := by
  have hdm := Nat.div_add_mod x m
  constructor
  · rintro (hlt | ⟨rfl, h0⟩)
    · exact (Nat.lt_mul_of_div_lt hlt hm).le.trans_eq (Nat.mul_comm _ _)
    · omega
  · intro hle
    rcases Nat.lt_or_ge (x / m) d with hlt | hge
    · exact .inl hlt
    · have hmul := Nat.mul_le_mul_left m hge
      exact .inr ⟨Nat.le_antisymm (Nat.div_le_of_le_mul hle) hge, by omega⟩

theorem magicContinues_iff (v : MagicVars) :
    magicContinues v = true ↔ v.q1 < v.delta ∨ (v.q1 = v.delta ∧ v.r1 = 0) := by
  simp [magicContinues]

theorem drvContinues_iff (r : Drv) :
    drvContinues r = true ↔ r.q1.toNat < r.delta.toNat ∨ (r.q1.toNat = r.delta.toNat ∧ r.r1.toNat = 0) := by
  simp [drvContinues, BitVec.lt_def, BitVec.toNat_eq]

/-- The registers and the naturals they read as test the same loop condition. -/
theorem magicContinues_drvVars (r : Drv) : magicContinues (drvVars r) = drvContinues r := by
  rw [Bool.eq_iff_iff, magicContinues_iff, drvContinues_iff]
  rfl

theorem drvEnded_eq_false_iff {r : Drv} : drvEnded r = false ↔ r.p.toNat < 32 ∨ drvContinues r = true := by
  simp [drvEnded, BitVec.le_def, Decidable.imp_iff_not_or]

section
variable {ad : Nat} {r : Drv}

/-- Under the invariant the loop condition compares powers (R95). -/
theorem DrvHolds.continues_iff (h : DrvHolds ad r) (hp : 32 ≤ r.p.toNat) :
    drvContinues r = true ↔ 2 ^ r.p.toNat ≤ ancOf ad * (ad - 2 ^ r.p.toNat % ad) := by
  rw [drvContinues_iff, h.q1Is, h.r1Is, h.deltaIs hp, div_lt_or_eq_iff (ancOf_bounds h.domain).1]

/-- While the loop has not ended the power `2^p` is below `anc * ad` or the first one. -/
theorem DrvHolds.pow_le (h : DrvHolds ad r) (he : drvEnded r = false) :
    r.p.toNat = 31 ∨ 2 ^ r.p.toNat ≤ ancOf ad * ad := by
  have hlow := h.pLow
  rcases Nat.lt_or_ge r.p.toNat 32 with hp | hp
  · exact .inl (by omega)
  · have hc := (drvEnded_eq_false_iff.mp he).resolve_left (by omega)
    exact .inr (((h.continues_iff hp).mp hc).trans (Nat.mul_le_mul_left _ (Nat.sub_le _ _)))

/-- A loop that has not ended may iterate: `p` stays in range (R98). -/
theorem DrvHolds.p_le (h : DrvHolds ad r) (he : drvEnded r = false) : r.p.toNat ≤ 61 := by
  rcases h.pow_le he with hp | hp
  · omega
  · obtain ⟨-, had, -⟩ := (inMagicDomain_iff ad).mp h.domain
    have hanc := (ancOf_bounds h.domain).2
    have hlt : 2 ^ r.p.toNat < 2 ^ 62 := calc
      2 ^ r.p.toNat ≤ ancOf ad * ad := hp
      _ ≤ (2 ^ 31 - 1) * (2 ^ 31 - 1) := Nat.mul_le_mul (by omega) had
      _ < 2 ^ 62 := by norm_num
    have := (Nat.pow_lt_pow_iff_right Nat.one_lt_two).mp hlt
    omega

/-- Before another iteration the quotients still fit in 32 bits, so that doubling them does not wrap (R91). -/
theorem DrvHolds.quotients_lt (h : DrvHolds ad r) (he : drvEnded r = false) :
    r.q1.toNat < 2 ^ 32 ∧ r.q2.toNat < 2 ^ 32 := by
  obtain ⟨h3, h31, -⟩ := (inMagicDomain_iff ad).mp h.domain
  obtain ⟨hanc0, hanc⟩ := ancOf_bounds h.domain
  rw [h.q1Is, h.q2Is]
  rcases h.pow_le he with hp | hp
  · rw [hp]
    exact ⟨(Nat.div_le_self _ _).trans_lt (by norm_num), (Nat.div_le_self _ _).trans_lt (by norm_num)⟩
  · have h1 : 2 ^ r.p.toNat / ancOf ad ≤ ad := Nat.div_le_of_le_mul hp
    have h2 : 2 ^ r.p.toNat / ad ≤ ancOf ad := Nat.div_le_of_le_mul (by rwa [Nat.mul_comm])
    omega

end

/-! ### Iterate -/

/-- Doubling a quotient and remainder register pair with one conditional subtraction, when nothing wraps (R94). -/
theorem register_double {q r m : Reg33} (hq : q.toNat < 2 ^ 32) (hr : r.toNat < m.toNat) (hm : m.toNat < 2 ^ 32) :
    ((if m ≤ 2#33 * r then 2#33 * q + 1#33 else 2#33 * q).toNat,
      (if m ≤ 2#33 * r then 2#33 * r - m else 2#33 * r).toNat) =
    if m.toNat ≤ 2 * r.toNat then (2 * q.toNat + 1, 2 * r.toNat - m.toNat) else (2 * q.toNat, 2 * r.toNat) := by
  have hq2 : (2#33 * q).toNat = 2 * q.toNat := by rw [BitVec.toNat_mul, BitVec.toNat_ofNat]; omega
  have hr2 : (2#33 * r).toNat = 2 * r.toNat := by rw [BitVec.toNat_mul, BitVec.toNat_ofNat]; omega
  simp only [BitVec.le_def, hr2]
  split
  · rw [BitVec.toNat_add, BitVec.toNat_sub, hq2, hr2, BitVec.toNat_ofNat]
    simp only [Prod.mk.injEq]
    omega
  · rw [hq2, hr2]

section
variable {ad : Nat} {r : Drv}

theorem DrvHolds.iterate_p (h : DrvHolds ad r) (he : drvEnded r = false) : (drvIterate r).p.toNat = r.p.toNat + 1 := by
  have hp := h.p_le he
  rw [drvIterate_p, BitVec.toNat_add, BitVec.toNat_ofNat]
  omega

/-- The two quotient and remainder pairs after one `iterate`, exactly (R94). -/
theorem DrvHolds.iterate_pairs (h : DrvHolds ad r) (he : drvEnded r = false) :
    ((drvIterate r).q1.toNat, (drvIterate r).r1.toNat) =
      (if ancOf ad ≤ 2 * r.r1.toNat then (2 * r.q1.toNat + 1, 2 * r.r1.toNat - ancOf ad)
        else (2 * r.q1.toNat, 2 * r.r1.toNat)) ∧
    ((drvIterate r).q2.toNat, (drvIterate r).r2.toNat) =
      (if ad ≤ 2 * r.r2.toNat then (2 * r.q2.toNat + 1, 2 * r.r2.toNat - ad)
        else (2 * r.q2.toNat, 2 * r.r2.toNat)) := by
  obtain ⟨h3, h31, -⟩ := (inMagicDomain_iff ad).mp h.domain
  obtain ⟨hanc0, hanc⟩ := ancOf_bounds h.domain
  obtain ⟨hq1, hq2⟩ := h.quotients_lt he
  have hr1 : r.r1.toNat < r.anc.toNat := by rw [h.r1Is, h.ancIs]; exact Nat.mod_lt _ hanc0
  have hr2 : r.r2.toNat < r.ad.toNat := by rw [h.r2Is, h.adIs]; exact Nat.mod_lt _ (by omega)
  have h1 := register_double hq1 hr1 (by rw [h.ancIs]; omega)
  have h2 := register_double hq2 hr2 (by rw [h.adIs]; omega)
  rw [h.ancIs] at h1
  rw [h.adIs] at h2
  exact ⟨h1, h2⟩

/-- The two pairs after one `iterate` in closed form (R99). -/
theorem DrvHolds.iterate_closed (h : DrvHolds ad r) (he : drvEnded r = false) :
    (drvIterate r).q1.toNat = 2 ^ (r.p.toNat + 1) / ancOf ad ∧
    (drvIterate r).r1.toNat = 2 ^ (r.p.toNat + 1) % ancOf ad ∧
    (drvIterate r).q2.toNat = 2 ^ (r.p.toNat + 1) / ad ∧ (drvIterate r).r2.toNat = 2 ^ (r.p.toNat + 1) % ad := by
  have had : 0 < ad := by have := ((inMagicDomain_iff ad).mp h.domain).1; omega
  obtain ⟨h1, h2⟩ := h.iterate_pairs he
  rw [h.q1Is, h.r1Is, ← double_div_mod (ancOf_bounds h.domain).1, ← Nat.pow_succ'] at h1
  rw [h.q2Is, h.r2Is, ← double_div_mod had, ← Nat.pow_succ'] at h2
  obtain ⟨hq1, hr1⟩ := Prod.mk.inj h1
  obtain ⟨hq2, hr2⟩ := Prod.mk.inj h2
  exact ⟨hq1, hr1, hq2, hr2⟩

theorem DrvHolds.iterate_delta (h : DrvHolds ad r) (he : drvEnded r = false) :
    (drvIterate r).delta.toNat = ad - (drvIterate r).r2.toNat := by
  have had : 0 < ad := by have := ((inMagicDomain_iff ad).mp h.domain).1; omega
  obtain ⟨-, -, -, hr2⟩ := h.iterate_closed he
  have hle : (drvIterate r).r2 ≤ r.ad := by
    rw [BitVec.le_def, hr2, h.adIs]
    exact (Nat.mod_lt _ had).le
  rw [drvIterate_delta, BitVec.toNat_sub_of_le hle, h.adIs]

/-- `iterate` keeps the loop invariant while the loop has not ended (R99). -/
theorem DrvHolds.iterate (h : DrvHolds ad r) (he : drvEnded r = false) : DrvHolds ad (drvIterate r) := by
  have hlow := h.pLow
  have hp61 := h.p_le he
  have hp := h.iterate_p he
  obtain ⟨hq1, hr1, hq2, hr2⟩ := h.iterate_closed he
  have hdelta := h.iterate_delta he
  have hcontinued : ∀ j, 32 ≤ j → j < r.p.toNat + 1 → 2 ^ j ≤ ancOf ad * (ad - 2 ^ j % ad) := by
    intro j hj hjp
    rcases Nat.lt_or_ge j r.p.toNat with hlt | hge
    · exact h.continuedBefore j hj hlt
    · obtain rfl : j = r.p.toNat := by omega
      exact (h.continues_iff hj).mp ((drvEnded_eq_false_iff.mp he).resolve_left (by omega))
  rw [← hp] at hq1 hr1 hq2 hr2 hcontinued
  exact {
    domain := h.domain
    adIs := h.adIs
    ancIs := h.ancIs
    pLow := by omega
    pHigh := by omega
    q1Is := hq1
    r1Is := hr1
    q2Is := hq2
    r2Is := hr2
    deltaIs := fun _ => by rw [hdelta, hr2]
    continuedBefore := hcontinued }

/-- One `iterate` is one iteration of R90 on the naturals the registers read as (R91, R94). -/
theorem DrvHolds.drvVars_iterate (h : DrvHolds ad r) (he : drvEnded r = false) :
    drvVars (drvIterate r) = magicIter ad (ancOf ad) (drvVars r) := by
  obtain ⟨h1, h2⟩ := h.iterate_pairs he
  obtain ⟨hq1, hr1⟩ := Prod.ext_iff.mp h1
  obtain ⟨hq2, hr2⟩ := Prod.ext_iff.mp h2
  have hdelta := (h.iterate_delta he).trans (congrArg (ad - ·) hr2)
  exact (MagicVars.mk.injEq ..).mpr ⟨hq1, hr1, hq2, hr2, h.iterate_p he, hdelta⟩

/-! ### The loop -/

/-- The register loop and the loop of R90 run in step. -/
theorem DrvHolds.magicLoop_eq (h : DrvHolds ad r) (he : drvEnded r = false) (n : Nat) :
    magicLoop ad (ancOf ad) n (drvVars r) = (drvLoop n r).map drvVars := by
  induction n generalizing r with
  | zero => rfl
  | succ n ih =>
    have h' := h.iterate he
    have hended : drvEnded (drvIterate r) = !drvContinues (drvIterate r) := by
      have hlow := h.pLow
      have hp := h.iterate_p he
      have hle : (32#6 : BitVec 6) ≤ (drvIterate r).p := by
        rw [BitVec.le_def, hp, BitVec.toNat_ofNat]
        omega
      rw [drvEnded, decide_eq_true hle, Bool.true_and]
    rw [magicLoop, drvLoop, ← h.drvVars_iterate he, magicContinues_drvVars, hended]
    cases hc : drvContinues (drvIterate r) with
    | true => exact ih h' (by rw [hended, hc]; rfl)
    | false => rfl

/-- A loop that has not ended ends within the iterations that take `P` to 62 (R98). -/
theorem DrvHolds.drvLoop_isSome (h : DrvHolds ad r) (he : drvEnded r = false) {n : Nat} (hn : 62 ≤ r.p.toNat + n) :
    ∃ t, drvLoop n r = some t := by
  induction n generalizing r with
  | zero =>
    have := h.p_le he
    omega
  | succ n ih =>
    rw [drvLoop]
    cases he' : drvEnded (drvIterate r) with
    | true => exact ⟨_, rfl⟩
    | false =>
      have hp := h.iterate_p he
      exact ih (h.iterate he) he' (by omega)

end

/-- An iteration does not read the earlier `delta`, so neither does the loop of R90. -/
theorem magicLoop_congr_delta (ad anc n : Nat) (v : MagicVars) (δ : Nat) :
    magicLoop ad anc n { v with delta := δ } = magicLoop ad anc n v := by
  cases n <;> rfl

theorem drvVars_drvStart {ad : Word} (r : Drv) (h : inMagicDomain ad.toNat = true) :
    drvVars (drvStart ad r) = { magicInit ad.toNat with delta := r.delta.toNat } := by
  have hs := drvStart_holds r h
  rw [drvVars, hs.q1Is, hs.r1Is, hs.q2Is, hs.r2Is, Nat.mod_eq_sub_div_mul, Nat.mod_eq_sub_div_mul]
  rfl

theorem drvStart_not_ended (ad : Word) (r : Drv) : drvEnded (drvStart ad r) = false :=
  drvEnded_eq_false_iff.mpr (.inl (by rw [drvStart_p]; decide))

/-- From its start the register loop ends, and the constants read off its registers are those of `derive`
(R90, R96, R103). -/
theorem drvLoop_computes_derive {ad : Word} (r : Drv) (h : inMagicDomain ad.toNat = true) :
    ∃ t, drvLoop Config.maxIterations (drvStart ad r) = some t ∧
      derive ad.toNat = some (drvMultiplier t, t.p.toNat - 32) := by
  have hs := drvStart_holds r h
  have he := drvStart_not_ended ad r
  obtain ⟨t, ht⟩ := hs.drvLoop_isSome he (n := Config.maxIterations) (by rw [drvStart_p]; decide)
  refine ⟨t, ht, ?_⟩
  have hloop : magicLoop ad.toNat (ancOf ad.toNat) Config.maxIterations (magicInit ad.toNat) = some (drvVars t) := by
    rw [← magicLoop_congr_delta _ _ _ _ r.delta.toNat, ← drvVars_drvStart r h, hs.magicLoop_eq he, ht]
    rfl
  have hmul : BitVec.ofNat 32 (t.q2.toNat + 1) = drvMultiplier t := by
    apply BitVec.eq_of_toNat_eq
    rw [drvMultiplier, BitVec.toNat_setWidth, BitVec.toNat_add, BitVec.toNat_ofNat, BitVec.toNat_ofNat]
    omega
  rw [derive, if_pos h, hloop, ← hmul]
  rfl

end Sys2Proof.Machine
end

section
/-! PROOFS. A whole command word on an idle block: its answer is a function of the word (00_scope.md R9). -/

namespace Sys2Proof.Machine

/-- The answer to a general `MKDIV`, its derivation ended, reads the constants off the registers (R66, R103). -/
theorem answerDerived_general {d ad : Word} {neg : Bool} {r : Drv} (hc : classify d = .general neg ad)
    (hr : r.run = true) (s : State) :
    answerDerived d s (some r) =
      .next (respond (descriptorResponse (magicDescriptor neg (drvShift r) (drvMultiplier r))) { s with drv := r }) := by
  simp only [answerDerived, answerMkdiv, hc, hr, if_true]

/-- `MKDIV` of a general divisor answers the descriptor of the constants of `derive`, whatever the working registers
held (40_dispatcher.md R66). -/
theorem runMkdiv_general {d ad : Word} {neg : Bool} (hc : classify d = .general neg ad) (s : State) :
    ∃ m sc r, derive ad.toNat = some (m, sc) ∧
      runMkdiv d s =
        .next (respond (descriptorResponse (magicDescriptor neg (BitVec.ofNat 5 sc) m)) { s with drv := r }) := by
  obtain ⟨r, hl, hderive⟩ := drvLoop_computes_derive s.drv (inMagicDomain_of_classify hc)
  have hans : runMkdiv d s = answerDerived d s (some r) := by simp only [runMkdiv, hc, hl]
  rw [answerDerived_general hc (drvLoop_run (drvStart_run s.drv ad) hl)] at hans
  exact ⟨_, _, r, hderive, hans⟩

/-! ### The fault and the response of a word, by what it decodes to -/

section
variable {c : CmdWord}

theorem commandFault_error {e : DecodeError} (h : decode c = .error e) :
    commandFault c = some (decodeErrorCause e) := by simp [commandFault, h]

theorem commandFault_mkdiv {d : Word} (h : decode c = .ok (.mkdiv d)) :
    commandFault c = if d = 0#32 then some .divisorZero else none := by simp [commandFault, h]

theorem commandFault_divS {neg : Bool} {sh : BitVec 5} {n : Word} (h : decode c = .ok (.divS neg sh n)) :
    commandFault c = none := by simp [commandFault, h]

theorem commandFault_divM {neg : Bool} {sh : BitVec 5} {mc n : Word} (h : decode c = .ok (.divM neg sh mc n)) :
    commandFault c = none := by simp [commandFault, h]

theorem responseTo_error {e : DecodeError} (h : decode c = .error e) :
    responseTo c = some (faultResponse (faultCode (decodeErrorCause e))) := by simp [responseTo, h]

theorem responseTo_mkdiv_zero {d : Word} (h : decode c = .ok (.mkdiv d)) (hc : classify d = .zero) :
    responseTo c = some (faultResponse (faultCode .divisorZero)) := by simp [responseTo, h, hc]

theorem responseTo_mkdiv_shift {d : Word} {neg : Bool} {k : Nat} (h : decode c = .ok (.mkdiv d))
    (hc : classify d = .shift neg k) : responseTo c = some (descriptorResponse (shiftDescriptor neg k)) := by
  simp [responseTo, h, hc]

theorem responseTo_mkdiv_general {d ad m : Word} {neg : Bool} {sc : Nat} (h : decode c = .ok (.mkdiv d))
    (hc : classify d = .general neg ad) (hderive : derive ad.toNat = some (m, sc)) :
    responseTo c = some (descriptorResponse (magicDescriptor neg (BitVec.ofNat 5 sc) m)) := by
  simp [responseTo, h, hc, hderive]

theorem responseTo_divS {neg : Bool} {sh : BitVec 5} {n : Word} (h : decode c = .ok (.divS neg sh n)) :
    responseTo c = some (quotientResponse (shiftQuotient sh neg n) (shiftOverflow sh neg n)) := by
  simp [responseTo, h]

theorem responseTo_divM {neg : Bool} {sh : BitVec 5} {mc n : Word} (h : decode c = .ok (.divM neg sh mc n)) :
    responseTo c = some (quotientResponse (generalQuotient mc sh neg n) false) := by simp [responseTo, h]

end

/-! ### What the block answers -/

/-- The outcome `o`, reached from the state `s` that the `accept` of `c` leaves, is the answer `c` calls for: its fault
entry, or its response with some content of the working registers. -/
def IsAnswerTo (c : CmdWord) (s : State) (o : Host.Outcome State Fault Refusal) : Prop :=
  (∃ f, commandFault c = some f ∧ responseTo c = some (faultResponse (faultCode f)) ∧ o = .next (raiseFault f s)) ∨
  (∃ r d, commandFault c = none ∧ responseTo c = some r ∧ o = .next (respond r { s with drv := d }))

/-- An accepted `MKDIV` is answered, by the class of its divisor (R60). -/
theorem runMkdiv_isAnswerTo {c : CmdWord} {d : Word} (hdec : decode c = .ok (.mkdiv d)) (s : State) :
    IsAnswerTo c s (runMkdiv d s) := by
  have hfault := commandFault_mkdiv hdec
  cases hc : classify d with
  | zero =>
    rw [if_pos (classify_eq_zero hc)] at hfault
    exact .inl ⟨_, hfault, responseTo_mkdiv_zero hdec hc, by simp only [runMkdiv, answerMkdiv, hc]⟩
  | shift neg k =>
    have hd : d ≠ 0#32 := by
      rintro rfl
      cases hc
    rw [if_neg hd] at hfault
    exact .inr ⟨_, s.drv, hfault, responseTo_mkdiv_shift hdec hc, by simp only [runMkdiv, answerMkdiv, hc]⟩
  | general neg ad =>
    rw [if_neg (classify_eq_general hc).1] at hfault
    obtain ⟨m, sc, r, hderive, hrun⟩ := runMkdiv_general hc s
    exact .inr ⟨_, r, hfault, responseTo_mkdiv_general hdec hc hderive, hrun⟩

/-- An idle block answers every command word, by what the word decodes to. -/
theorem runWord_isAnswerTo (c : CmdWord) {s : State} (h : s.ph = .idle) :
    IsAnswerTo c (acceptWord c s) (runWord c s) := by
  cases hdec : decode c with
  | error e =>
    rw [runWord_error hdec, whenIdle_idle h]
    exact .inl ⟨_, commandFault_error hdec, responseTo_error hdec, rfl⟩
  | ok i =>
    rw [runWord_ok hdec]
    have henc := encode_of_decode hdec
    cases i with
    | mkdiv d =>
      rw [exec, execMkdiv, whenIdle_idle h, henc]
      exact runMkdiv_isAnswerTo hdec _
    | divS neg sh n =>
      rw [exec, execDivS, whenIdle_idle h, henc]
      exact .inr ⟨_, s.drv, commandFault_divS hdec, responseTo_divS hdec, rfl⟩
    | divM neg sh mc n =>
      rw [exec, execDivM, whenIdle_idle h, henc]
      exact .inr ⟨_, s.drv, commandFault_divM hdec, responseTo_divM hdec, rfl⟩

/-- Settles O52: the block's answer is the fault or the response of the word, and either is read off field by field. -/
theorem responseIsAFunctionOfTheCommand : Obligations.ResponseIsAFunctionOfTheCommand := by
  intro s c h
  rcases runWord_isAnswerTo c h with ⟨f, hf, hr, hrun⟩ | ⟨r, d, hf, hr, hrun⟩
  · exact ⟨_, _, hrun, hr, by simp [hf]⟩
  · exact ⟨_, _, hrun, hr, by simp [hf]⟩

end Sys2Proof.Machine
end

section
/-! PROOFS. Facts of the encoder and of the start of a derivation that the statements on steps rest on. -/

namespace Sys2Proof.Machine

/-! ### Decoding what was encoded (30_encoding.md R41, R43, R50, R52) -/

theorem descFields_descWord (D : Descriptor) : descFields (descWord D) = D := by
  obtain ⟨tag, neg, sh, mc⟩ := D
  rw [descFields, descWord, Descriptor.mk.injEq]
  refine ⟨?_, ?_, ?_, BitVec.extractLsb'_append_eq_right⟩
  · rw [BitVec.extractLsb'_append_eq_of_le (by decide), BitVec.extractLsb'_append_eq_of_le (by decide)]
    exact BitVec.extractLsb'_append_eq_left
  · simp only [BitVec.getLsbD_append, BitVec.getLsbD_ofBool]; rfl
  · rw [BitVec.extractLsb'_append_eq_of_le (by decide)]
    exact BitVec.extractLsb'_append_eq_right

theorem commandFields_commandWord (f : CommandFields) : commandFields (commandWord f) = f := by
  obtain ⟨opc, D, operand⟩ := f
  rw [commandFields, commandWord, CommandFields.mk.injEq]
  refine ⟨?_, ?_, BitVec.extractLsb'_append_eq_right⟩
  · rw [BitVec.extractLsb'_append_eq_of_le (by decide)]
    exact BitVec.extractLsb'_append_eq_left
  · rw [BitVec.extractLsb'_append_eq_of_le (by decide)]
    exact (congrArg descFields BitVec.extractLsb'_append_eq_right).trans (descFields_descWord D)

theorem decodeFields_instrFields (i : Instr) : decodeFields (instrFields i) = .ok i := by
  cases i <;> rfl

theorem decode_encode (i : Instr) : decode (encode i) = .ok i := by
  rw [decode, encode, commandFields_commandWord, decodeFields_instrFields]

/-- All 80 bits of a word written as the opcode table numbers them are the word (20_memory.md R31). -/
theorem tableWord_toNat (c : CmdWord) : tableWord 80 c.toNat = c := by
  rw [tableWord, Nat.mod_eq_of_lt c.isLt, BitVec.ofNat_toNat, BitVec.setWidth_eq]

/-! ### Which words start a derivation (42_magic_derivation.md R103) -/

theorem generalCommand_eq_some_iff {c : CmdWord} {neg : Bool} {ad : Word} :
    generalCommand c = some (neg, ad) ↔ ∃ d, decode c = .ok (.mkdiv d) ∧ classify d = .general neg ad := by
  unfold generalCommand
  cases decode c with
  | error e => simp
  | ok i =>
    cases i with
    | divS neg' sh n => simp
    | divM neg' sh mc n => simp
    | mkdiv d => cases hc : classify d <;> simp [hc]

theorem startDerivation_general {c : CmdWord} {neg : Bool} {ad : Word} (h : generalCommand c = some (neg, ad))
    (r : Drv) : startDerivation c r = drvStart ad r := by
  obtain ⟨d, hd, hc⟩ := generalCommand_eq_some_iff.mp h
  simp only [startDerivation, hd, hc]

theorem startDerivation_not_general {c : CmdWord} (h : generalCommand c = none) (r : Drv) :
    startDerivation c r = r := by
  unfold startDerivation
  cases hd : decode c with
  | error e => rfl
  | ok i =>
    cases i with
    | divS neg sh n => rfl
    | divM neg sh mc n => rfl
    | mkdiv d =>
      cases hc : classify d with
      | zero => simp only [hc]
      | shift neg k => simp only [hc]
      | general neg ad => cases h.symm.trans (generalCommand_eq_some_iff.mpr ⟨d, hd, hc⟩)

theorem inMagicDomain_of_generalCommand {c : CmdWord} {neg : Bool} {ad : Word}
    (h : generalCommand c = some (neg, ad)) : inMagicDomain ad.toNat = true := by
  obtain ⟨d, -, hc⟩ := generalCommand_eq_some_iff.mp h
  exact inMagicDomain_of_classify hc

end Sys2Proof.Machine
end

section
/-! PROOFS. One step of the block: its equation for each thing offered to an idle block (10_state.md R14), and what a
step that answers a next state has done. -/

namespace Sys2Proof.Machine

section
variable {s : State} {c : CmdWord} {rest : List HostEvent}

theorem step_run (hph : s.ph = .idle) (hin : s.inbox = .run c :: rest) :
    step s = runWord c { s with inbox := rest } := by
  simp only [step, stepEvent, hin, hph]

theorem step_offer (hph : s.ph = .idle) (hin : s.inbox = .offer c :: rest) :
    step s = .next (acceptStep c { s with inbox := rest }) := by
  simp only [step, stepEvent, hin, hph]

theorem step_busy (hph : s.ph = .busy) (hin : s.inbox = []) : step s = blockStep s := by
  simp only [step, stepEvent, hin, hph]

end

/-- Settles O5: the equation of the step, then the two of `runWord`. -/
theorem stepRunsTheDecodedInstruction : Obligations.StepRunsTheDecodedInstruction := by
  intro s c rest hph hin
  rw [step_run hph hin]
  exact ⟨fun i hd => runWord_ok hd _,
    fun e hd => (runWord_error hd _).trans (whenIdle_idle (s := { s with inbox := rest }) hph _)⟩

/-- Settles O6: the word placed is the encoding, which decodes to the instruction. -/
theorem placedEncodingIsRun : Obligations.PlacedEncodingIsRun := by
  intro s i hph
  have hstep : step (s.withFetchWord 80 (encode i).toNat) = runWord (tableWord 80 (encode i).toNat) s :=
    step_run hph rfl
  rw [hstep, tableWord_toNat, runWord_ok (decode_encode i)]

/-- Settles O9: the equation of the step; the word is a general `MKDIV` or leaves the working registers alone. -/
theorem acceptStepTakesAnyWord : Obligations.AcceptStepTakesAnyWord := by
  intro s c rest hph hin
  rw [step_offer hph hin, acceptStep]
  cases hg : generalCommand c with
  | none => rw [startDerivation_not_general hg]; rfl
  | some g => rw [startDerivation_general hg]; rfl

/-- What a step from `s` to a next state has done: reset; used up an event with nothing enabled; accepted a word;
answered a whole command by a response or a fault entry; or, while busy, iterated, responded or taken a fault. -/
inductive StepsTo (s : State) : State → Prop
  | reset {rest} (hin : s.inbox = .reset :: rest) : StepsTo s (hostReset { s with inbox := rest })
  | wait (hph : s.ph ≠ .busy) : StepsTo s { s with inbox := s.inbox.tail }
  | accept {c rest} (hph : s.ph = .idle) (hin : s.inbox = .offer c :: rest) :
      StepsTo s (acceptStep c { s with inbox := rest })
  | runResponds {c rest r d} (hph : s.ph = .idle) (hin : s.inbox = .run c :: rest) :
      StepsTo s (respond r { acceptWord c { s with inbox := rest } with drv := d })
  | runFaults {c rest f} (hph : s.ph = .idle) (hin : s.inbox = .run c :: rest) :
      StepsTo s (raiseFault f (acceptWord c { s with inbox := rest }))
  | iterate (hph : s.ph = .busy) (hrun : s.drv.run = true) (he : drvEnded s.drv = false) :
      StepsTo s { s with inbox := dropTick s.inbox, drv := drvIterate s.drv }
  | busyResponds {r} (hph : s.ph = .busy) : StepsTo s (respond r { s with inbox := dropTick s.inbox })
  | busyFaults {f} (hph : s.ph = .busy) : StepsTo s (raiseFault f { s with inbox := dropTick s.inbox })

/-- A step answers a next state, or it is the `respond` of a general `MKDIV` whose derivation is not running. -/
theorem step_stepsTo_or_stops (s : State) :
    (∃ t, step s = .next t ∧ StepsTo s t) ∨
    (s.ph = .busy ∧ s.drv.run = false ∧ (generalCommand s.cmdr).isSome = true ∧
      step s = .fault .noDerivationRunning) := by
  rcases step_cases s with
    ⟨rest, hin, h⟩ | ⟨hph, -, h⟩ | ⟨c, rest, hph, hin, h⟩ | ⟨c, rest, hph, hin, h⟩ | ⟨hph, -, h⟩
  · exact .inl ⟨_, h, .reset hin⟩
  · exact .inl ⟨_, h, .wait hph⟩
  · rcases runWord_isAnswerTo c (s := { s with inbox := rest }) hph with ⟨f, -, -, hrun⟩ | ⟨r, d, -, -, hrun⟩
    · exact .inl ⟨_, h.trans hrun, .runFaults hph hin⟩
    · exact .inl ⟨_, h.trans hrun, .runResponds hph hin⟩
  · exact .inl ⟨_, h, .accept hph hin⟩
  · rcases blockStep_cases { s with inbox := dropTick s.inbox } with ⟨hrun, he, hb⟩ | ⟨-, hb⟩
    · exact .inl ⟨_, h.trans hb, .iterate hph hrun he⟩
    · rcases respondStep_cases { s with inbox := dropTick s.inbox } with
        ⟨r, hr⟩ | ⟨f, hr⟩ | ⟨d, neg, ad, hd, hc, hrun, hr⟩
      · exact .inl ⟨_, h.trans (hb.trans hr), .busyResponds hph⟩
      · exact .inl ⟨_, h.trans (hb.trans hr), .busyFaults hph⟩
      · have hg : generalCommand s.cmdr = some (neg, ad) := generalCommand_eq_some_iff.mpr ⟨d, hd, hc⟩
        exact .inr ⟨hph, hrun, by rw [hg]; rfl, h.trans (hb.trans hr)⟩

theorem stepsTo_of_step {s t : State} (h : step s = .next t) : StepsTo s t := by
  rcases step_stepsTo_or_stops s with ⟨t', h', hto⟩ | ⟨-, -, -, h'⟩
  · cases h.symm.trans h'
    exact hto
  · cases h.symm.trans h'

/-- Settles O11: only the two fault entries and reset give `FSR` another value. -/
theorem fsrChangesOnlyByFaultOrReset : Obligations.FsrChangesOnlyByFaultOrReset := by
  intro s t h hne
  cases stepsTo_of_step h with
  | reset hin => exact .inr ⟨⟨_, hin⟩, rfl⟩
  | runFaults hph => exact .inl ⟨rfl, by simp [hph], faultCode_ne_zero _⟩
  | busyFaults hph => exact .inl ⟨rfl, by simp [hph], faultCode_ne_zero _⟩
  | wait | accept | runResponds | iterate | busyResponds => exact absurd rfl hne

/-- Settles O12: only reset, an `accept` and a whole command give `CMDR` another value. -/
theorem cmdrIsWrittenOnlyByAccept : Obligations.CmdrIsWrittenOnlyByAccept := by
  intro s t h hne
  cases stepsTo_of_step h with
  | reset hin => exact .inl ⟨_, hin⟩
  | accept hph hin => exact .inr ⟨hph, _, .inr hin⟩
  | runResponds hph hin => exact .inr ⟨hph, _, .inl hin⟩
  | runFaults hph hin => exact .inr ⟨hph, _, .inl hin⟩
  | wait | iterate | busyResponds | busyFaults => exact absurd rfl hne

end Sys2Proof.Machine
end

section
/-! PROOFS. The invariant of the state (10_state.md R10, R15, R18; 42_magic_derivation.md R99): each operation gives or
keeps it, so every step keeps it, and under it no step stops. -/

namespace Sys2Proof.Machine

section
variable {s : State}

theorem State.Inv.fsr_eq_zero (h : s.Inv) (hph : s.ph ≠ .halt) : s.fsr = 0#4 :=
  not_not.mp (mt h.haltIffFault.mpr hph)

theorem State.Inv.run_eq_false (h : s.Inv) (hph : s.ph ≠ .busy) : s.drv.run = false :=
  Bool.eq_false_iff.mpr (mt h.runBusy hph)

/-- The invariant does not speak of what the hosts will do. -/
theorem State.Inv.setInbox (h : s.Inv) (es : List HostEvent) : { s with inbox := es }.Inv :=
  ⟨h.haltIffFault, h.fsrCode, h.runBusy, h.runIffGeneral, h.derivation, h.busyNoResponse, h.portLastSent⟩

theorem inv_hostReset (s : State) : (hostReset s).Inv where
  haltIffFault := by simp
  fsrCode := by simp
  runBusy := by simp
  runIffGeneral := by simp
  derivation := by simp
  busyNoResponse := by simp
  portLastSent := by simp

/-- A response leaves the invariant, whatever stood in the working registers, in a block that has taken no fault. -/
theorem inv_respond (r : RespWord) (hfsr : s.fsr = 0#4) : (respond r s).Inv where
  haltIffFault := by simp [hfsr]
  fsrCode := by simp [hfsr]
  runBusy := by simp
  runIffGeneral := by simp
  derivation := by simp
  busyNoResponse := by simp
  portLastSent := by simp

theorem inv_raiseFault (f : FaultCause) (s : State) : (raiseFault f s).Inv where
  haltIffFault := by simp [faultCode_ne_zero]
  fsrCode := faultCode_le_three f
  runBusy := by simp
  runIffGeneral := by simp
  derivation := by simp
  busyNoResponse := by simp
  portLastSent := by simp

/-- `accept` starts exactly the derivation of a general `MKDIV`: `RUN` was 0 in the idle block. -/
theorem State.Inv.accept (h : s.Inv) (hph : s.ph = .idle) (c : CmdWord) : (acceptStep c s).Inv where
  haltIffFault := by simp [h.fsr_eq_zero (by simp [hph])]
  fsrCode := h.fsrCode
  runBusy _ := rfl
  runIffGeneral _ := by
    have hrun : s.drv.run = false := h.run_eq_false (by simp [hph])
    rw [acceptStep_drv, acceptStep_cmdr]
    cases hg : generalCommand c with
    | none => simp [startDerivation_not_general hg, hrun]
    | some g => simp [startDerivation_general hg]
  derivation _ neg ad hg := by
    rw [acceptStep_cmdr] at hg
    rw [acceptStep_drv, startDerivation_general hg]
    exact drvStart_holds s.drv (inMagicDomain_of_generalCommand hg)
  busyNoResponse _ := rfl
  portLastSent := by simp

theorem State.Inv.iterate (h : s.Inv) (hrun : s.drv.run = true) (he : drvEnded s.drv = false) :
    { s with drv := drvIterate s.drv }.Inv where
  haltIffFault := h.haltIffFault
  fsrCode := h.fsrCode
  runBusy := h.runBusy
  runIffGeneral := h.runIffGeneral
  derivation _ neg ad hg := (h.derivation hrun neg ad hg).iterate he
  busyNoResponse := h.busyNoResponse
  portLastSent := h.portLastSent

end

/-- Settles O54: the reset state is what a reset leaves. -/
theorem resetSatisfiesTheInvariant : Obligations.ResetSatisfiesTheInvariant := inv_hostReset State.reset

/-- Settles O1: the four rows, read off the reset state. -/
theorem resetStateIsIdleAndClear : Obligations.ResetStateIsIdleAndClear := ⟨rfl, rfl, rfl, rfl⟩

/-- Settles O55: each thing a step can do keeps the invariant. -/
theorem everyStepKeepsTheInvariant : Obligations.EveryStepKeepsTheInvariant := by
  intro s t h hstep
  cases stepsTo_of_step hstep with
  | reset => exact inv_hostReset _
  | wait => exact h.setInbox _
  | accept hph => exact (h.accept hph _).setInbox _
  | runResponds hph => exact inv_respond _ (h.fsr_eq_zero (by simp [hph]))
  | runFaults => exact inv_raiseFault _ _
  | iterate _ hrun he => exact (h.iterate hrun he).setInbox _
  | busyResponds hph => exact inv_respond _ (h.fsr_eq_zero (by simp [hph]))
  | busyFaults => exact inv_raiseFault _ _

/-- Settles O56: the one stop of a step is in a busy block with `RUN` = 0 and a general `MKDIV`. -/
theorem noStepStopsUnderTheInvariant : Obligations.NoStepStopsUnderTheInvariant := by
  intro s h
  rcases step_stepsTo_or_stops s with ⟨t, hstep, -⟩ | ⟨hph, hrun, hg, -⟩
  · exact ⟨t, hstep⟩
  · cases hrun.symm.trans ((h.runIffGeneral hph).mpr hg)

end Sys2Proof.Machine
end

section
/-! PROOFS. The collapsed step of a word is its `accept`, its `iterate` steps and its `respond` (10_state.md R14,
70_reset_and_hazards.md R147). -/

namespace Sys2Proof.Machine

/-- The state `s` after `k` iterations of U_MAGIC. -/
def afterIterations (s : State) (k : Nat) : State := { s with drv := drvIterate^[k] s.drv }

theorem afterIterations_succ (s : State) (k : Nat) :
    afterIterations s (k + 1) = { afterIterations s k with drv := drvIterate (afterIterations s k).drv } := by
  simp only [afterIterations, Function.iterate_succ_apply']

theorem iterate_drvIterate_run (k : Nat) (r : Drv) : (drvIterate^[k] r).run = r.run := by
  induction k with
  | zero => rfl
  | succ k ih => rw [Function.iterate_succ_apply', drvIterate_run, ih]

theorem iterate_drvIterate_p (k : Nat) (r : Drv) : (drvIterate^[k] r).p = r.p + BitVec.ofNat 6 k := by
  induction k with
  | zero => simp
  | succ k ih => rw [Function.iterate_succ_apply', drvIterate_p, ih, BitVec.add_assoc, ← BitVec.ofNat_add]

/-! ### How the derivation of an accepted word ends -/

theorem iterationsOf_not_general {c : CmdWord} (h : generalCommand c = none) : iterationsOf c = 0 := by
  simp only [iterationsOf, h]

/-- The number of `iterate` steps of a general `MKDIV` is that of its register loop: the loop first ends there. -/
theorem drvLoop_ends_at_iterationsOf {c : CmdWord} {neg : Bool} {ad : Word}
    (h : generalCommand c = some (neg, ad)) (r : Drv) :
    drvLoop Config.maxIterations (drvStart ad r) = some (drvIterate^[iterationsOf c] (drvStart ad r)) ∧
    drvEnded (drvIterate^[iterationsOf c] (drvStart ad r)) = true ∧
    ∀ j < iterationsOf c, drvEnded (drvIterate^[j] (drvStart ad r)) = false := by
  obtain ⟨t, hl, hderive⟩ := drvLoop_computes_derive r (inMagicDomain_of_generalCommand h)
  obtain ⟨k, hk1, hk31, ht, hend, hbefore⟩ := drvLoop_eq_some hl
  have hp : t.p.toNat = 31 + k := by
    have hle : k ≤ 31 := hk31
    rw [ht, iterate_drvIterate_p, drvStart_p, BitVec.toNat_add, BitVec.toNat_ofNat, BitVec.toNat_ofNat]
    omega
  have hk : iterationsOf c = k := by
    simp only [iterationsOf, h, hderive]
    omega
  rw [hk, ← ht]
  refine ⟨hl, hend, fun j hj => ?_⟩
  rcases Nat.eq_zero_or_pos j with rfl | hpos
  · exact drvStart_not_ended ad r
  · exact hbefore j hpos hj

/-- After its `accept` a word iterates as often as `iterationsOf` says. -/
theorem acceptStep_iterates (c : CmdWord) (s : State) :
    ∀ j < iterationsOf c,
      (drvIterate^[j] (acceptStep c s).drv).run = true ∧ drvEnded (drvIterate^[j] (acceptStep c s).drv) = false := by
  intro j hj
  cases hg : generalCommand c with
  | none => rw [iterationsOf_not_general hg] at hj; omega
  | some g =>
    obtain ⟨-, -, hbefore⟩ := drvLoop_ends_at_iterationsOf hg s.drv
    rw [acceptStep_drv, startDerivation_general hg]
    exact ⟨iterate_drvIterate_run j _, hbefore j hj⟩

/-- After those iterations the block's own step is the `respond`. -/
theorem acceptStep_then_responds (c : CmdWord) {s : State} (hrun : s.drv.run = false) :
    blockStep (afterIterations (acceptStep c s) (iterationsOf c)) =
      respondStep (afterIterations (acceptStep c s) (iterationsOf c)) := by
  rcases blockStep_cases (afterIterations (acceptStep c s) (iterationsOf c)) with ⟨hr, he, -⟩ | ⟨-, h⟩
  · rw [afterIterations, acceptStep_drv] at hr he
    cases hg : generalCommand c with
    | none =>
      rw [iterate_drvIterate_run, startDerivation_not_general hg] at hr
      cases hrun.symm.trans hr
    | some g =>
      obtain ⟨-, hend, -⟩ := drvLoop_ends_at_iterationsOf hg s.drv
      rw [startDerivation_general hg] at he
      cases he.symm.trans hend
  · exact h

/-! ### The response -/

/-- An `MKDIV` that is not general is answered without a derivation. -/
theorem runMkdiv_not_general {d : Word} (h : ∀ neg ad, classify d ≠ .general neg ad) (s : State) :
    runMkdiv d s = answerMkdiv d s := by
  unfold runMkdiv
  cases hc : classify d with
  | zero => rfl
  | shift neg k => rfl
  | general neg ad => exact absurd hc (h neg ad)

/-- The `respond` of a word that starts no derivation is its collapsed answer. -/
theorem respondStep_not_general {c : CmdWord} (hg : generalCommand c = none) {s : State} (hph : s.ph = .idle) :
    respondStep (acceptWord c s) = runWord c s := by
  unfold respondStep
  rw [acceptWord_cmdr]
  cases hdec : decode c with
  | error e => rw [runWord_error hdec, whenIdle_idle hph]
  | ok i =>
    have henc := encode_of_decode hdec
    rw [runWord_ok hdec]
    cases i with
    | divS neg sh n => rw [exec, execDivS, whenIdle_idle hph, henc]
    | divM neg sh mc n => rw [exec, execDivM, whenIdle_idle hph, henc]
    | mkdiv d =>
      have hc : ∀ neg ad, classify d ≠ .general neg ad := fun neg ad hc => by
        cases hg.symm.trans (generalCommand_eq_some_iff.mpr ⟨d, hdec, hc⟩)
      rw [exec, execMkdiv, whenIdle_idle hph, henc, runMkdiv_not_general hc]

/-- The `respond` of a general `MKDIV`, with the registers its loop ends with, is its collapsed answer. -/
theorem respondStep_general {c : CmdWord} {neg : Bool} {ad : Word} (hg : generalCommand c = some (neg, ad))
    {s : State} (hph : s.ph = .idle) {r : Drv} (hl : drvLoop Config.maxIterations (drvStart ad s.drv) = some r) :
    respondStep { acceptWord c s with drv := r } = runWord c s := by
  obtain ⟨d, hdec, hc⟩ := generalCommand_eq_some_iff.mp hg
  have hrespond : respondStep { acceptWord c s with drv := r } = answerDerived d (acceptWord c s) (some r) := by
    simp only [respondStep, acceptWord_cmdr, hdec, answerDerived]
  have hrun : runMkdiv d (acceptWord c s) = answerDerived d (acceptWord c s) (some r) := by
    simp only [runMkdiv, hc, acceptWord_drv, hl]
  rw [hrespond, runWord_ok hdec, exec, execMkdiv, whenIdle_idle hph, encode_of_decode hdec, hrun]

/-- The `respond` at the end of the small steps of a word is its collapsed answer. -/
theorem respondStep_afterIterations (c : CmdWord) {s : State} (hph : s.ph = .idle) :
    respondStep (afterIterations (acceptStep c s) (iterationsOf c)) = runWord c s := by
  cases hg : generalCommand c with
  | none =>
    rw [iterationsOf_not_general hg, ← respondStep_not_general hg hph, afterIterations, acceptStep,
      startDerivation_not_general hg]
    rfl
  | some g =>
    obtain ⟨hl, -, -⟩ := drvLoop_ends_at_iterationsOf hg s.drv
    rw [afterIterations, acceptStep_drv, startDerivation_general hg]
    exact respondStep_general hg hph hl

/-- The block's own step after the last `iterate` of a word is its collapsed answer. -/
theorem blockStep_afterIterations (c : CmdWord) {s : State} (hph : s.ph = .idle) (hrun : s.drv.run = false) :
    blockStep (afterIterations (acceptStep c s) (iterationsOf c)) = runWord c s :=
  (acceptStep_then_responds c hrun).trans (respondStep_afterIterations c hph)

/-! ### The run -/

theorem runSteps_one (s : State) : runSteps 1 s = step s := by
  unfold runSteps
  cases step s <;> rfl

/-- A run of one step more ends with what the state reached steps to. -/
theorem runSteps_succ_eq_step {k : Nat} {s t : State} (h : runSteps k s = .next t) : runSteps (k + 1) s = step t :=
  (runSteps_add h).trans (runSteps_one t)

/-- A busy block to which nothing is offered iterates as long as its derivation has not ended. -/
theorem runSteps_iterates {s : State} (hph : s.ph = .busy) (hin : s.inbox = []) {k : Nat}
    (h : ∀ j < k, (drvIterate^[j] s.drv).run = true ∧ drvEnded (drvIterate^[j] s.drv) = false) :
    runSteps k s = .next (afterIterations s k) := by
  induction k with
  | zero => rfl
  | succ k ih =>
    obtain ⟨hrun, he⟩ := h k (by omega)
    have hblock : blockStep (afterIterations s k) = .next (afterIterations s (k + 1)) := by
      rw [afterIterations_succ, blockStep, if_pos (by simp [afterIterations, hrun, he])]
    calc runSteps (k + 1) s
      _ = step (afterIterations s k) := runSteps_succ_eq_step (ih fun j hj => h j (by omega))
      _ = blockStep (afterIterations s k) := step_busy hph hin
      _ = .next (afterIterations s (k + 1)) := hblock

/-- The steps of a word offered to an idle block up to its last `iterate`. -/
theorem runSteps_offer (c : CmdWord) {s : State} (hph : s.ph = .idle) {j : Nat} (hj : j ≤ iterationsOf c) :
    runSteps (j + 1) { s with inbox := [.offer c] } =
      .next (afterIterations (acceptStep c { s with inbox := [] }) j) := by
  have haccept : step { s with inbox := [.offer c] } = .next (acceptStep c { s with inbox := [] }) :=
    step_offer hph rfl
  rw [runSteps_succ haccept]
  exact runSteps_iterates rfl rfl fun i hi => acceptStep_iterates c _ i (by omega)

/-- Settles O58: the `accept`, the iterations of U_MAGIC one by one, and the `respond`, which gives the collapsed
answer. -/
theorem collapsedStepIsTheSmallSteps : Obligations.CollapsedStepIsTheSmallSteps := by
  intro s c hinv hph
  constructor
  · have hrun : s.drv.run = false := hinv.run_eq_false (by simp [hph])
    have hcollapsed : step { s with inbox := [.run c] } = runWord c { s with inbox := [] } := step_run hph rfl
    rw [hcollapsed, runSteps_succ_eq_step (runSteps_offer c hph le_rfl), step_busy rfl rfl]
    exact blockStep_afterIterations c hph hrun
  · intro j hj1 hjk
    obtain ⟨i, rfl⟩ : ∃ i, j = i + 1 := ⟨j - 1, by omega⟩
    exact ⟨_, runSteps_offer c hph (by omega), rfl, rfl, rfl⟩

end Sys2Proof.Machine
end

section
/-! PROOFS. A sequence of commands, each answered in one step: the run of the sequence is the runs of its words put
end to end (20_memory.md R34, R35). -/

namespace Sys2Proof.Machine

/-- One step of an idle block answers the fault-free word offered to it, and leaves the block idle for the rest of the
offers. -/
theorem step_run_answers {s : State} {c : CmdWord} {rest : List HostEvent} (hph : s.ph = .idle)
    (hin : s.inbox = .run c :: rest) (hfault : commandFault c = none) :
    ∃ t r, step s = .next t ∧ responseTo c = some r ∧ t.ph = .idle ∧ t.fsr = s.fsr ∧ t.inbox = rest ∧
      t.sent = s.sent ++ [r] := by
  obtain ⟨t, r, hrun, hresp, -, hsent, hinbox, -, -, htph, hfsr⟩ :=
    responseIsAFunctionOfTheCommand { s with inbox := rest } c hph
  rw [if_pos hfault] at htph
  rw [hfault] at hfsr
  exact ⟨t, r, (step_run hph hin).trans hrun, hresp, htph, hfsr, hinbox, hsent⟩

/-- Settles O53, by induction on the words: the first is answered in one step, and the state it leaves is an idle block
to which exactly the other words are offered. -/
theorem commandSequenceIsAnsweredInOrder : Obligations.CommandSequenceIsAnsweredInOrder := by
  intro cs
  induction cs with
  | nil => exact fun s hph _ => ⟨_, [], rfl, hph, rfl, rfl, rfl, (List.append_nil _).symm⟩
  | cons c cs ih =>
    intro s hph hfaults
    obtain ⟨hc, hcs⟩ := List.forall_mem_cons.mp hfaults
    obtain ⟨u, r, hstep, hr, huph, hufsr, huin, husent⟩ :=
      step_run_answers (s := { s with inbox := (c :: cs).map HostEvent.run }) hph rfl hc
    obtain ⟨t, rs, hrun, htph, htfsr, htin, hrs, htsent⟩ := ih u huph hcs
    rw [← huin] at hrun
    refine ⟨t, r :: rs, (runSteps_succ hstep).trans hrun, htph, htfsr.trans hufsr, htin, ?_, ?_⟩
    · rw [List.map_cons, List.map_cons, hr, hrs]
    · rw [htsent, husent, List.append_assoc, List.singleton_append]

end Sys2Proof.Machine
end

section
/-! PROOFS. The decoder and the encoder are inverse to each other on the legal words (30_encoding.md R41 to R44, R50,
R52), and the words the spec writes out. -/

namespace Sys2Proof.Machine

theorem instr_wellFormed (i : Instr) : i.wellFormed = true := by
  cases i with
  | mkdiv d => exact (Laws.WellFormed.mkdiv d).1
  | divS neg sh n => exact (Laws.WellFormed.divS neg sh n).1
  | divM neg sh mc n => exact (Laws.WellFormed.divM neg sh mc n).1

/-- Settles O15: the fields of the encoding are the instruction's fields, and these decode to it. -/
theorem decodeOfEncodeIsTheInstruction : Obligations.DecodeOfEncodeIsTheInstruction :=
  fun i _ => decode_encode i

/-- Settles O16: the instruction's fields are the fields read from the word, and the fields of a word are all of it. -/
theorem encodeOfDecodeIsTheWord : Obligations.EncodeOfDecodeIsTheWord :=
  fun _ i h => ⟨encode_of_decode h, instr_wellFormed i⟩

/-- Settles O17: each of the eight words is closed, and the decoder runs on it. -/
theorem writtenWordsDecode : Obligations.WrittenWordsDecode := by
  unfold Obligations.WrittenWordsDecode
  decide

end Sys2Proof.Machine
end

section
/-! PROOFS. The decoder on the bits of the word: the seven lines of 30_encoding.md R50, the masks of R51, and which
descriptors `DIV` executes (R44). -/

namespace Sys2Proof.Machine

/-! ### The fields of a word, as bits of the word (R41, R43) -/

/-- A field of a field is a field of the word. -/
theorem extractLsb'_extractLsb' {w start len start' len' : Nat} (x : BitVec w) (h : start' + len' ≤ len) :
    (x.extractLsb' start len).extractLsb' start' len' = x.extractLsb' (start + start') len' := by
  apply BitVec.eq_of_getLsbD_eq
  intro i hi
  have hlt : start' + i < len := by omega
  simp [BitVec.getLsbD_extractLsb', hlt, Nat.add_assoc]

theorem commandFields_opc (c : CmdWord) : (commandFields c).opc = c.extractLsb' 72 8 := rfl

theorem commandFields_operand (c : CmdWord) : (commandFields c).operand = c.extractLsb' 0 32 := rfl

theorem commandFields_tag (c : CmdWord) : (commandFields c).desc.tag = c.extractLsb' 70 2 :=
  extractLsb'_extractLsb' c (by decide)

theorem commandFields_neg (c : CmdWord) : (commandFields c).desc.neg = c.getLsbD 69 :=
  BitVec.getLsbD_extractLsb' 32 40 c 37

theorem commandFields_sh (c : CmdWord) : (commandFields c).desc.sh = c.extractLsb' 64 5 :=
  extractLsb'_extractLsb' c (by decide)

theorem commandFields_mc (c : CmdWord) : (commandFields c).desc.mc = c.extractLsb' 32 32 :=
  extractLsb'_extractLsb' c (by decide)

/-- The fields of a descriptor word are all of it (R43). -/
theorem descWord_descFields (D : DescWord) : descWord (descFields D) = D := by
  apply BitVec.eq_of_getLsbD_eq
  intro i hi
  simp only [descWord, descFields, BitVec.getLsbD_append, BitVec.getLsbD_extractLsb', BitVec.getLsbD_ofBool]
  grind

theorem descFields_eq_zero_iff (D : DescWord) : descFields D = Descriptor.zero ↔ D = 0#40 := by
  constructor
  · intro h
    rw [← descWord_descFields D, h]
    rfl
  · rintro rfl
    rfl

theorem commandFields_desc_eq_zero_iff (c : CmdWord) :
    (commandFields c).desc = Descriptor.zero ↔ c.extractLsb' 32 40 = 0#40 :=
  descFields_eq_zero_iff _

theorem commandFields_injective {c c' : CmdWord} (h : commandFields c = commandFields c') : c = c' := by
  rw [← commandWord_commandFields c, h, commandWord_commandFields]

/-! ### The seven lines of R50, one equation each -/

section
variable {f : CommandFields}

theorem decodeFields_unknownOpcode (h : f.opc ≠ opcMkdiv ∧ f.opc ≠ opcDiv) :
    decodeFields f = .error .unknownOpcode := by rw [decodeFields, if_pos h]

theorem decodeFields_of_mkdiv (h : f.opc = opcMkdiv) :
    decodeFields f = if f.desc ≠ Descriptor.zero then .error .mkdivReservedBits else .ok (.mkdiv f.operand) := by
  rw [decodeFields, if_neg (fun hne => hne.1 h), if_pos h]

theorem decodeFields_of_div (h : f.opc = opcDiv) :
    decodeFields f =
      if f.desc.tag = tagShift then
        if f.desc.mc ≠ 0#32 then .error .shiftMultiplier else .ok (.divS f.desc.neg f.desc.sh f.operand)
      else if f.desc.tag = tagMagic then .ok (.divM f.desc.neg f.desc.sh f.desc.mc f.operand)
      else .error .reservedTag := by
  rw [decodeFields, if_neg (fun hne => hne.2 h), if_neg (fun hmk => absurd (hmk.symm.trans h) (by decide))]

theorem decodeFields_mkdivReservedBits (h : f.opc = opcMkdiv) (hD : f.desc ≠ Descriptor.zero) :
    decodeFields f = .error .mkdivReservedBits := by rw [decodeFields_of_mkdiv h, if_pos hD]

theorem decodeFields_mkdiv (h : f.opc = opcMkdiv) (hD : f.desc = Descriptor.zero) :
    decodeFields f = .ok (.mkdiv f.operand) := by rw [decodeFields_of_mkdiv h, if_neg (not_not_intro hD)]

theorem decodeFields_reservedTag (h : f.opc = opcDiv) (hS : f.desc.tag ≠ tagShift) (hM : f.desc.tag ≠ tagMagic) :
    decodeFields f = .error .reservedTag := by rw [decodeFields_of_div h, if_neg hS, if_neg hM]

theorem decodeFields_shiftMultiplier (h : f.opc = opcDiv) (ht : f.desc.tag = tagShift) (hmc : f.desc.mc ≠ 0#32) :
    decodeFields f = .error .shiftMultiplier := by rw [decodeFields_of_div h, if_pos ht, if_pos hmc]

theorem decodeFields_divS (h : f.opc = opcDiv) (ht : f.desc.tag = tagShift) (hmc : f.desc.mc = 0#32) :
    decodeFields f = .ok (.divS f.desc.neg f.desc.sh f.operand) := by
  rw [decodeFields_of_div h, if_pos ht, if_neg (not_not_intro hmc)]

theorem decodeFields_divM (h : f.opc = opcDiv) (ht : f.desc.tag = tagMagic) :
    decodeFields f = .ok (.divM f.desc.neg f.desc.sh f.desc.mc f.operand) := by
  rw [decodeFields_of_div h, if_neg (by rw [ht]; decide), if_pos ht]

end

/-- The two tags of line 4 are the two that name no variant (R43). -/
theorem reservedTag_iff (t : BitVec 2) : t = 0b00#2 ∨ t = 0b11#2 ↔ t ≠ tagShift ∧ t ≠ tagMagic := by
  revert t
  decide

/-! ### The lines taken by an idle block -/

theorem runWord_commandFault {c : CmdWord} {f : FaultCause} {s : State} (hph : s.ph = .idle)
    (hf : commandFault c = some f) : ∃ t, runWord c s = .next t ∧ t.ph = .halt ∧ t.fsr = faultCode f := by
  obtain ⟨t, r, hrun, -, -, -, -, -, -, htph, htfsr⟩ := responseIsAFunctionOfTheCommand s c hph
  rw [hf] at htph htfsr
  exact ⟨t, hrun, htph, htfsr⟩

theorem runWord_decodeError {c : CmdWord} {e : DecodeError} {s : State} (hph : s.ph = .idle)
    (hdec : decode c = .error e) :
    ∃ t, runWord c s = .next t ∧ t.ph = .halt ∧ t.fsr = faultCode (decodeErrorCause e) :=
  runWord_commandFault hph (commandFault_error hdec)

/-- Settles O13: the conditions are put on the fields of the word, and each of the seven cases is a line of the
decoder. -/
theorem decoderFollowsTheSevenLines : Obligations.DecoderFollowsTheSevenLines := by
  intro c s hph
  simp only [← commandFields_opc, ← commandFields_operand, ← commandFields_tag, ← commandFields_neg,
    ← commandFields_sh, ← commandFields_mc, ne_eq, ← commandFields_desc_eq_zero_iff, reservedTag_iff]
  split
  · next h =>
    have hdec : decode c = .error .unknownOpcode := decodeFields_unknownOpcode h
    exact ⟨hdec, runWord_decodeError hph hdec⟩
  next hopc =>
  split
  · next h =>
    have hdec : decode c = .error .mkdivReservedBits := decodeFields_mkdivReservedBits h.1 h.2
    exact ⟨hdec, runWord_decodeError hph hdec⟩
  next hres =>
  split
  · next h =>
    have hdec : decode c = .ok (.mkdiv (commandFields c).operand) :=
      decodeFields_mkdiv h (not_not.mp fun hD => hres ⟨h, hD⟩)
    exact ⟨hdec, fun h0 => runWord_commandFault hph ((commandFault_mkdiv hdec).trans (if_pos h0))⟩
  next hmk =>
  have hdiv : (commandFields c).opc = opcDiv := not_not.mp fun hne => hopc ⟨hmk, hne⟩
  split
  · next h =>
    have hdec : decode c = .error .reservedTag := decodeFields_reservedTag hdiv h.1 h.2
    exact ⟨hdec, runWord_decodeError hph hdec⟩
  next htag =>
  split
  · next h =>
    have hdec : decode c = .error .shiftMultiplier := decodeFields_shiftMultiplier hdiv h.1 h.2
    exact ⟨hdec, runWord_decodeError hph hdec⟩
  next hmul =>
  split
  · next h => exact decodeFields_divS hdiv h (not_not.mp fun hmc => hmul ⟨h, hmc⟩)
  · next h => exact decodeFields_divM hdiv (not_not.mp fun hM => htag ⟨h, hM⟩)

/-! ### The masks (R51) -/

/-- A word decodes to an instruction exactly when its fields are the instruction's. -/
theorem decode_eq_ok_iff {c : CmdWord} {i : Instr} : decode c = .ok i ↔ commandFields c = instrFields i :=
  ⟨fun h => (instrFields_of_decodeFields h).symm, fun h => by rw [decode, h, decodeFields_instrFields]⟩

/-- The fields `f` under the mask with the fields `m`. -/
def fieldsAnd (f m : CommandFields) : CommandFields :=
  ⟨f.opc &&& m.opc, ⟨f.desc.tag &&& m.desc.tag, f.desc.neg && m.desc.neg, f.desc.sh &&& m.desc.sh,
    f.desc.mc &&& m.desc.mc⟩, f.operand &&& m.operand⟩

theorem commandFields_and (c m : CmdWord) :
    commandFields (c &&& m) = fieldsAnd (commandFields c) (commandFields m) := by
  simp only [fieldsAnd, commandFields, descFields, BitVec.extractLsb'_and, BitVec.getLsbD_and]

/-- A masked word is compared field by field. -/
theorem and_eq_iff_fieldsAnd {c m v : CmdWord} :
    c &&& m = v ↔ fieldsAnd (commandFields c) (commandFields m) = commandFields v := by
  rw [← commandFields_and]
  exact ⟨congrArg commandFields, commandFields_injective⟩

theorem and_mkdivMask_iff (c : CmdWord) :
    c &&& 0xFFFFFFFFFFFF00000000#80 = 0x01000000000000000000#80 ↔ ∃ d, decode c = .ok (.mkdiv d) := by
  have hmask : commandFields 0xFFFFFFFFFFFF00000000#80 =
      ⟨BitVec.allOnes 8, ⟨BitVec.allOnes 2, true, BitVec.allOnes 5, BitVec.allOnes 32⟩, 0#32⟩ := by decide
  have hmatch : commandFields 0x01000000000000000000#80 = ⟨opcMkdiv, Descriptor.zero, 0#32⟩ := by decide
  simp only [and_eq_iff_fieldsAnd, hmask, hmatch, decode_eq_ok_iff]
  obtain ⟨opc, ⟨tag, neg, sh, mc⟩, operand⟩ := commandFields c
  simp only [fieldsAnd, instrFields, CommandFields.mk.injEq, Descriptor.mk.injEq, BitVec.and_allOnes, BitVec.and_zero,
    Bool.and_true]
  simp

theorem and_divSMask_iff (c : CmdWord) :
    c &&& 0xFFC0FFFFFFFF00000000#80 = 0x02400000000000000000#80 ↔ ∃ neg sh n, decode c = .ok (.divS neg sh n) := by
  have hmask : commandFields 0xFFC0FFFFFFFF00000000#80 =
      ⟨BitVec.allOnes 8, ⟨BitVec.allOnes 2, false, 0#5, BitVec.allOnes 32⟩, 0#32⟩ := by decide
  have hmatch : commandFields 0x02400000000000000000#80 = ⟨opcDiv, ⟨tagShift, false, 0#5, 0#32⟩, 0#32⟩ := by decide
  simp only [and_eq_iff_fieldsAnd, hmask, hmatch, decode_eq_ok_iff]
  obtain ⟨opc, ⟨tag, neg, sh, mc⟩, operand⟩ := commandFields c
  simp only [fieldsAnd, instrFields, CommandFields.mk.injEq, Descriptor.mk.injEq, BitVec.and_allOnes, BitVec.and_zero,
    Bool.and_false]
  simp

theorem and_divMMask_iff (c : CmdWord) :
    c &&& 0xFFC00000000000000000#80 = 0x02800000000000000000#80 ↔ ∃ neg sh mc n, decode c = .ok (.divM neg sh mc n) := by
  have hmask : commandFields 0xFFC00000000000000000#80 =
      ⟨BitVec.allOnes 8, ⟨BitVec.allOnes 2, false, 0#5, 0#32⟩, 0#32⟩ := by decide
  have hmatch : commandFields 0x02800000000000000000#80 = ⟨opcDiv, ⟨tagMagic, false, 0#5, 0#32⟩, 0#32⟩ := by decide
  simp only [and_eq_iff_fieldsAnd, hmask, hmatch, decode_eq_ok_iff]
  obtain ⟨opc, ⟨tag, neg, sh, mc⟩, operand⟩ := commandFields c
  simp only [fieldsAnd, instrFields, CommandFields.mk.injEq, Descriptor.mk.injEq, BitVec.and_allOnes, BitVec.and_zero,
    Bool.and_false]
  simp

/-- Settles O14: a word has at most one decoding, so the forms are disjoint; one that has none is illegal and takes its
fault. -/
theorem formsAreTheirMasks : Obligations.FormsAreTheirMasks := by
  intro c
  have hmkdiv := and_mkdivMask_iff c
  have hdivS := and_divSMask_iff c
  have hdivM := and_divMMask_iff c
  refine ⟨hmkdiv, hdivS, hdivM, ?_, ?_, ?_, ?_⟩
  · rintro ⟨h, h'⟩
    obtain ⟨d, hd⟩ := hmkdiv.mp h
    obtain ⟨neg, sh, n, hs⟩ := hdivS.mp h'
    cases hd.symm.trans hs
  · rintro ⟨h, h'⟩
    obtain ⟨d, hd⟩ := hmkdiv.mp h
    obtain ⟨neg, sh, mc, n, hm⟩ := hdivM.mp h'
    cases hd.symm.trans hm
  · rintro ⟨h, h'⟩
    obtain ⟨neg, sh, n, hs⟩ := hdivS.mp h
    obtain ⟨neg', sh', mc, n', hm⟩ := hdivM.mp h'
    cases hs.symm.trans hm
  · intro hnot hnotS hnotM s hph
    cases hdec : decode c with
    | error e =>
      obtain ⟨t, hrun, htph, -⟩ := runWord_decodeError hph hdec
      exact ⟨t, hrun, htph⟩
    | ok i =>
      cases i with
      | mkdiv d => exact absurd (hmkdiv.mpr ⟨d, hdec⟩) hnot
      | divS neg sh n => exact absurd (hdivS.mpr ⟨neg, sh, n, hdec⟩) hnotS
      | divM neg sh mc n => exact absurd (hdivM.mpr ⟨neg, sh, mc, n, hdec⟩) hnotM

/-! ### The descriptors `DIV` executes (R44) -/

theorem commandFields_divWord (D : DescWord) (n : Word) :
    commandFields (0x02#8 ++ D ++ n) = ⟨opcDiv, descFields D, n⟩ := by
  have h := commandFields_commandWord ⟨opcDiv, descFields D, n⟩
  rwa [commandWord, descWord_descFields] at h

/-- Settles O18: `DIV` decodes by the tag and the multiplier of the descriptor, and the response and the fault are
those of what the word decodes to. -/
theorem divExecutesExactlyWellFormedDescriptors : Obligations.DivExecutesExactlyWellFormedDescriptors := by
  intro s D n hph
  have hdecode : decode (0x02#8 ++ D ++ n) = decodeFields ⟨opcDiv, descFields D, n⟩ :=
    congrArg decodeFields (commandFields_divWord D n)
  obtain ⟨t, r, hrun, hresp, hport, -, -, -, -, htph, htfsr⟩ :=
    responseIsAFunctionOfTheCommand s (0x02#8 ++ D ++ n) hph
  refine ⟨t, r, hrun, hport, fun htag => ?_, fun ⟨htag, hmc⟩ => ?_, fun hill => ?_⟩
  · have hdec := hdecode.trans (decodeFields_divM rfl htag)
    rw [commandFault_divM hdec] at htph htfsr
    exact ⟨htph, htfsr, Option.some.inj (hresp.symm.trans (responseTo_divM hdec))⟩
  · have hdec := hdecode.trans (decodeFields_divS rfl htag hmc)
    rw [commandFault_divS hdec] at htph htfsr
    exact ⟨htph, htfsr, Option.some.inj (hresp.symm.trans (responseTo_divS hdec))⟩
  · have hbad : ∃ e, decode (0x02#8 ++ D ++ n) = .error e ∧ decodeErrorCause e = .badDesc := by
      rw [hdecode]
      by_cases htag : (descFields D).tag = tagShift
      · exact ⟨_, decodeFields_shiftMultiplier rfl htag (fun hmc => hill (.inr ⟨htag, hmc⟩)), rfl⟩
      · exact ⟨_, decodeFields_reservedTag rfl htag (fun hM => hill (.inl hM)), rfl⟩
    obtain ⟨e, hdec, hcause⟩ := hbad
    have hr := hresp.symm.trans (responseTo_error hdec)
    rw [commandFault_error hdec, hcause] at htph htfsr
    rw [hcause] at hr
    exact ⟨htph, htfsr, Option.some.inj hr⟩

end Sys2Proof.Machine
end

section
/-! PROOFS. The status byte and the payload of every response (30_encoding.md R47 to R49). -/

namespace Sys2Proof.Machine

/-! ### The class of a divisor by its magnitude (40_dispatcher.md R62 to R66) -/

theorem divisorNeg_eq (d : Word) : divisorNeg d = decide (d.toInt < 0) := getLsbD_31_eq d

/-- The shift of a SHIFT divisor is the exponent of its magnitude, which is a power of two. -/
theorem classify_eq_shift {d : Word} {neg : Bool} {k : Nat} (h : classify d = .shift neg k) :
    neg = divisorNeg d ∧ k < 32 ∧ (magnitude d).toNat = 2 ^ k := by
  unfold classify at h
  split at h
  next => cases h
  next hd =>
    dsimp only at h
    split at h
    next hpow =>
      cases h
      have hk : highestBit (magnitude d) < 32 := Nat.lt_succ_of_le (Nat.sub_le 31 _)
      refine ⟨rfl, hk, ?_⟩
      rw [← congrArg BitVec.toNat hpow, shl32_eq_ofNat, BitVec.toNat_ofNat, show (1#32).toNat = 1 from rfl,
        Nat.one_mul, Nat.mod_eq_of_lt (Nat.pow_lt_pow_right Nat.one_lt_two hk)]
    next => cases h

theorem classify_of_natAbs_eq_two_pow {d : Word} {k : Nat} (h : d.toInt.natAbs = 2 ^ k) :
    classify d = .shift (decide (d.toInt < 0)) k := by
  rw [← magnitude_toNat] at h
  cases hc : classify d with
  | zero =>
    rw [classify_eq_zero hc] at h
    exact absurd h.symm (Nat.two_pow_pos k).ne'
  | shift neg j =>
    obtain ⟨rfl, -, hj⟩ := classify_eq_shift hc
    rw [divisorNeg_eq, Nat.pow_right_injective le_rfl (hj.symm.trans h)]
  | general neg ad =>
    obtain ⟨-, -, rfl, hne⟩ := classify_eq_general hc
    exact absurd h (hne k)

theorem classify_of_inMagicDomain {d : Word} (h : inMagicDomain d.toInt.natAbs = true) :
    classify d = .general (decide (d.toInt < 0)) (magnitude d) := by
  rw [← magnitude_toNat] at h
  obtain ⟨h3, -, hne⟩ := (inMagicDomain_iff _).mp h
  cases hc : classify d with
  | zero =>
    rw [classify_eq_zero hc] at h3
    exact absurd h3 (by decide)
  | shift neg k =>
    obtain ⟨-, hk, hpow⟩ := classify_eq_shift hc
    exact absurd hpow (hne k hk)
  | general neg ad =>
    obtain ⟨-, rfl, rfl, -⟩ := classify_eq_general hc
    rw [divisorNeg_eq]

theorem inMagicDomain_of_derive {ad sc : Nat} {m : Word} (h : derive ad = some (m, sc)) : inMagicDomain ad = true := by
  unfold derive at h
  split at h
  next hd => exact hd
  next => cases h

/-! ### The fields of a response word (R47, R48) -/

section
variable (fc : BitVec 4) (ovf : Bool) (p : DescWord)

theorem responseWord_status (status : BitVec 8) : (responseWord status p).extractLsb' 40 8 = status :=
  BitVec.extractLsb'_append_eq_left

theorem responseWord_payload (status : BitVec 8) : (responseWord status p).extractLsb' 0 40 = p :=
  BitVec.extractLsb'_append_eq_right

theorem responseWord_fc : (responseWord (statusByte fc ovf) p).extractLsb' 44 4 = fc := by
  rw [responseWord, BitVec.extractLsb'_append_eq_of_le (by decide), statusByte,
    BitVec.extractLsb'_append_eq_of_le (by decide)]
  exact BitVec.extractLsb'_append_eq_left

theorem responseWord_reserved : (responseWord (statusByte fc ovf) p).extractLsb' 41 3 = 0#3 := by
  rw [responseWord, BitVec.extractLsb'_append_eq_of_le (by decide), statusByte,
    BitVec.extractLsb'_append_eq_of_le (by decide)]
  exact BitVec.extractLsb'_append_eq_right

theorem responseWord_ovf : (responseWord (statusByte fc ovf) p).getLsbD 40 = ovf := by
  simp only [responseWord, statusByte, BitVec.getLsbD_append, BitVec.getLsbD_ofBool]
  rfl

end

/-! ### The response of a word as status and payload (R48, R49) -/

/-- `FC` of the response to a word: the code of its fault, or 0 (R48). -/
def commandFC (c : CmdWord) : BitVec 4 :=
  match commandFault c with
  | some f => faultCode f
  | none => 0#4

section
variable {c : CmdWord} {r : RespWord}

theorem commandFC_of_fault {f : FaultCause} (hf : commandFault c = some f) : commandFC c = faultCode f := by
  rw [commandFC, hf]

theorem commandFC_of_no_fault (hf : commandFault c = none) : commandFC c = 0#4 := by rw [commandFC, hf]

theorem shiftOverflow_iff (sh : BitVec 5) (neg : Bool) (n : Word) :
    shiftOverflow sh neg n = true ↔ neg = true ∧ sh = 0#5 ∧ n = intMin := by
  simp [shiftOverflow, and_assoc, and_left_comm]

theorem responseTo_of_fault {f : FaultCause} (hf : commandFault c = some f) :
    responseTo c = some (faultResponse (faultCode f)) := by
  rcases runWord_isAnswerTo c (s := State.reset) rfl with ⟨g, hg, hr, -⟩ | ⟨r, d, hnone, -, -⟩
  · cases hf.symm.trans hg
    exact hr
  · cases hf.symm.trans hnone

/-- A command that does not fault is answered with `FC = 0` and the flag of R85. -/
theorem responseTo_of_no_fault (hf : commandFault c = none) (h : responseTo c = some r) :
    ∃ ovf p, r = responseWord (statusByte 0#4 ovf) p ∧ (ovf = true ↔ decode c = .ok (.divS true 0#5 intMin)) := by
  cases hdec : decode c with
  | error e => cases hf.symm.trans (commandFault_error hdec)
  | ok i =>
    cases i with
    | divS neg sh n =>
      refine ⟨_, _, Option.some.inj (h.symm.trans (responseTo_divS hdec)), ?_⟩
      rw [shiftOverflow_iff, Except.ok.injEq, Instr.divS.injEq]
    | divM neg sh mc n =>
      exact ⟨false, _, Option.some.inj (h.symm.trans (responseTo_divM hdec)), by simp⟩
    | mkdiv d =>
      cases hc : classify d with
      | zero =>
        have hzero := commandFault_mkdiv hdec
        rw [if_pos (classify_eq_zero hc)] at hzero
        cases hf.symm.trans hzero
      | shift neg k =>
        exact ⟨false, _, Option.some.inj (h.symm.trans (responseTo_mkdiv_shift hdec hc)), by simp⟩
      | general neg ad =>
        obtain ⟨m, sc, -, hderive, -⟩ := runMkdiv_general hc State.reset
        exact ⟨false, _, Option.some.inj (h.symm.trans (responseTo_mkdiv_general hdec hc hderive)), by simp⟩

/-- Every response has the fault code of its word as `FC` and the flag of R85 as `OVF`; a fault leaves the flag and the
payload zero. -/
theorem responseTo_eq_responseWord (h : responseTo c = some r) :
    ∃ ovf p, r = responseWord (statusByte (commandFC c) ovf) p ∧
      (ovf = true ↔ decode c = .ok (.divS true 0#5 intMin)) ∧ (commandFault c ≠ none → ovf = false ∧ p = 0#40) := by
  cases hf : commandFault c with
  | none =>
    rw [commandFC_of_no_fault hf]
    obtain ⟨ovf, p, hr, hovf⟩ := responseTo_of_no_fault hf h
    exact ⟨ovf, p, hr, hovf, fun hne => absurd rfl hne⟩
  | some f =>
    rw [commandFC_of_fault hf]
    have hdec : decode c ≠ .ok (.divS true 0#5 intMin) := fun hdec => by cases hf.symm.trans (commandFault_divS hdec)
    exact ⟨false, 0#40, Option.some.inj (h.symm.trans (responseTo_of_fault hf)), by simp [hdec], fun _ => ⟨rfl, rfl⟩⟩

/-- The flag is set only beside `FC = 0`, so five values of `STATUS` occur (R48). -/
theorem statusByte_commandFC_mem {ovf : Bool} (h : commandFault c ≠ none → ovf = false) :
    statusByte (commandFC c) ovf ∈ [0x00#8, 0x01#8, 0x10#8, 0x20#8, 0x30#8] := by
  cases hf : commandFault c with
  | none =>
    rw [commandFC_of_no_fault hf]
    cases ovf <;> decide
  | some f =>
    rw [commandFC_of_fault hf, h (by simp [hf])]
    cases f <;> decide

/-! ### The payload by the command (R49) -/

theorem mkdiv_payload_of_two_pow (h : responseTo c = some r) {d : Word} {k : Nat} (hdec : decode c = .ok (.mkdiv d))
    (hk : d.toInt.natAbs = 2 ^ k) :
    r.extractLsb' 0 40 = descWord (shiftDescriptor (decide (d.toInt < 0)) k) := by
  rw [responseTo_mkdiv_shift hdec (classify_of_natAbs_eq_two_pow hk)] at h
  rw [← Option.some.inj h, descriptorResponse, responseWord_payload]

theorem mkdiv_payload_of_derive (h : responseTo c = some r) {d m : Word} {sc : Nat} (hdec : decode c = .ok (.mkdiv d))
    (hderive : derive d.toInt.natAbs = some (m, sc)) :
    r.extractLsb' 0 40 = descWord (magicDescriptor (decide (d.toInt < 0)) (BitVec.ofNat 5 sc) m) := by
  have hc := classify_of_inMagicDomain (inMagicDomain_of_derive hderive)
  rw [← magnitude_toNat] at hderive
  rw [responseTo_mkdiv_general hdec hc hderive] at h
  rw [← Option.some.inj h, descriptorResponse, responseWord_payload]

theorem divS_payload (h : responseTo c = some r) {neg : Bool} {sh : BitVec 5} {n : Word}
    (hdec : decode c = .ok (.divS neg sh n)) : r.extractLsb' 0 40 = 0x00#8 ++ shiftQuotient sh neg n := by
  rw [responseTo_divS hdec] at h
  rw [← Option.some.inj h, quotientResponse, responseWord_payload]

theorem divM_payload (h : responseTo c = some r) {neg : Bool} {sh : BitVec 5} {mc n : Word}
    (hdec : decode c = .ok (.divM neg sh mc n)) : r.extractLsb' 0 40 = 0x00#8 ++ generalQuotient mc sh neg n := by
  rw [responseTo_divM hdec] at h
  rw [← Option.some.inj h, quotientResponse, responseWord_payload]

end

/-- Settles O51: the response is the one its word calls for, the status read off the response word and the payload by
the command. -/
theorem everyResponseIsAStatusAndAPayload : Obligations.EveryResponseIsAStatusAndAPayload := by
  intro s c hph
  obtain ⟨t, r, hrun, hresp, hport, -⟩ := responseIsAFunctionOfTheCommand s c hph
  obtain ⟨ovf, p, hr, hovf, hfault⟩ := responseTo_eq_responseWord hresp
  refine ⟨t, r, hrun, hport, ?_, ?_, ?_, ?_, ?_, fun d k hdec _ hk => mkdiv_payload_of_two_pow hresp hdec hk,
    fun d m sc hdec hderive => mkdiv_payload_of_derive hresp hdec hderive,
    fun neg sh n hdec => divS_payload hresp hdec, fun neg sh mc n hdec => divM_payload hresp hdec⟩
  · rw [hr]
    exact responseWord_fc (commandFC c) ovf p
  · rw [hr, responseWord_reserved]
  · rw [hr, responseWord_ovf]
    exact hovf
  · rw [hr, responseWord_status]
    exact statusByte_commandFC_mem fun hf => (hfault hf).1
  · intro hf
    rw [hr, responseWord_payload, (hfault hf).2]

end Sys2Proof.Machine
end

section
/-! PROOFS. The truncated quotient (00_scope.md R7), and U_SHIFT divides by a power of two (41_shift_strategy.md R80 to
R87). -/

namespace Sys2Proof.Machine

/-! ### The truncated quotient -/

theorem tdiv_neg_left (n d : Int) : tdiv (-n) d = -tdiv n d := by
  simp [tdiv]

theorem tdiv_neg_right (n d : Int) : tdiv n (-d) = -tdiv n d := by
  simp [tdiv]

/-- The sign a descriptor carries is the sign of its quotient. -/
theorem tdiv_ite_neg (n m : Int) (neg : Bool) :
    tdiv n (if neg then -m else m) = if neg then -tdiv n m else tdiv n m := by
  cases neg with
  | true => exact tdiv_neg_right n m
  | false => rfl

theorem tdiv_of_nonneg {n m : Int} (hn : 0 ≤ n) (hm : 0 < m) : tdiv n m = n / m := by
  rcases hn.eq_or_lt with rfl | hn
  · simp [tdiv]
  · rw [tdiv, Int.sign_eq_one_of_pos hn, Int.sign_eq_one_of_pos hm, Int.natCast_div, Int.natAbs_of_nonneg hn.le,
      Int.natAbs_of_nonneg hm.le, one_mul, one_mul]

/-- Of a negative dividend the truncated quotient is the ceiling. -/
theorem tdiv_of_neg {n m : Int} (hn : n < 0) (hm : 0 < m) : tdiv n m = (n + m - 1) / m := by
  have hquot := tdiv_of_nonneg (n := -n) (by omega) hm
  have hdm := Int.mul_ediv_add_emod (-n) m
  have hlo := Int.emod_nonneg (-n) hm.ne'
  have hhi := Int.emod_lt_of_pos (-n) hm
  rw [tdiv_neg_left] at hquot
  rw [← neg_neg (tdiv n m), hquot, eq_comm, Int.ediv_eq_iff_of_pos hm, neg_mul, mul_comm]
  omega

theorem tdiv_one (n : Int) : tdiv n 1 = n := by
  rcases lt_or_ge n 0 with hn | hn
  · rw [tdiv_of_neg hn one_pos, add_sub_cancel_right, Int.ediv_one]
  · rw [tdiv_of_nonneg hn one_pos, Int.ediv_one]

theorem natAbs_tdiv_le (n d : Int) : (tdiv n d).natAbs ≤ n.natAbs / d.natAbs := by
  rw [tdiv, Int.natAbs_mul, Int.natAbs_mul, Int.natAbs_natCast]
  have hn : n.sign.natAbs ≤ 1 := by rw [Int.natAbs_sign]; split <;> omega
  have hd : d.sign.natAbs ≤ 1 := by rw [Int.natAbs_sign]; split <;> omega
  exact (Nat.mul_le_mul_right _ (Nat.mul_le_mul hn hd)).trans_eq (by rw [Nat.mul_one, Nat.one_mul])

/-! ### The shift strategy -/

/-- The two shifts of the bias together leave one bit, the sign (R82). -/
theorem two_pow_compl_mul_two_pow_pred {sh : Nat} (h1 : 1 ≤ sh) (h31 : sh ≤ 31) :
    (2 : Int) ^ (32 - sh) * 2 ^ (sh - 1) = 2 ^ 31 := by
  rw [← pow_add, show 32 - sh + (sh - 1) = 31 by omega]

/-- The first shift of the bias leaves a value of at most `32 - sh` bits and the sign of the dividend (R82). -/
theorem asr32_pred_bounds {sh : Nat} (h1 : 1 ≤ sh) (h31 : sh ≤ 31) (n : Word) :
    -2 ^ (32 - sh) ≤ (asr32 n (sh - 1)).toInt ∧ (asr32 n (sh - 1)).toInt < 2 ^ (32 - sh) ∧
      ((asr32 n (sh - 1)).toInt < 0 ↔ n.toInt < 0) := by
  obtain ⟨hlo, hhi⟩ := word_bounds n
  have hpow := two_pow_compl_mul_two_pow_pred h1 h31
  have hpos : (0 : Int) < 2 ^ (sh - 1) := by positivity
  rw [asr32_toInt]
  refine ⟨(Int.le_ediv_iff_mul_le hpos).mpr ?_, (Int.ediv_lt_iff_lt_mul hpos).mpr ?_, ?_⟩
  · rw [neg_mul, hpow]; exact hlo
  · rw [hpow]; omega
  · rw [Int.ediv_lt_iff_lt_mul hpos, zero_mul]

/-- The rounding bias is `2^sh - 1` for a negative dividend and 0 for any other (R82). -/
theorem shiftBias_toNat {sh : Nat} (h1 : 1 ≤ sh) (h31 : sh ≤ 31) (n : Word) :
    (shiftBias sh n).toNat = if n.toInt < 0 then 2 ^ sh - 1 else 0 := by
  obtain ⟨hlo, hhi, hsign⟩ := asr32_pred_bounds h1 h31 n
  have hread := toInt_eq_toNat_sub (asr32 n (sh - 1))
  have hsplit : 2 ^ sh * 2 ^ (32 - sh) = 2 ^ 32 := by rw [← pow_add, Nat.add_sub_cancel' (by omega)]
  have hcast : (2 : Int) ^ (32 - sh) = (2 ^ (32 - sh) : Nat) := by norm_cast
  have hsub := Nat.sub_one_mul (2 ^ sh) (2 ^ (32 - sh))
  have hle : 2 ^ (32 - sh) ≤ 2 ^ 32 := Nat.pow_le_pow_right (by decide) (by omega)
  rw [shiftBias, lsr32_toNat]
  rw [getLsbD_31_eq] at hread
  rw [hcast] at hlo hhi
  by_cases hn : n.toInt < 0
  · have hneg := hsign.mpr hn
    rw [decide_eq_true hneg, if_pos rfl] at hread
    rw [if_pos hn, Nat.div_eq_iff (Nat.two_pow_pos _)]
    omega
  · have hnonneg := mt hsign.mp hn
    rw [decide_eq_false hnonneg, if_neg Bool.false_ne_true] at hread
    rw [if_neg hn]
    exact Nat.div_eq_of_lt (by omega)

/-- The bias reads the same signed: it has bit 31 clear. -/
theorem shiftBias_toInt {sh : Nat} (h1 : 1 ≤ sh) (h31 : sh ≤ 31) (n : Word) :
    (shiftBias sh n).toInt = if n.toInt < 0 then 2 ^ sh - 1 else 0 := by
  have hbias := shiftBias_toNat h1 h31 n
  have hpow : 2 ^ sh ≤ 2 ^ 31 := Nat.pow_le_pow_right (by decide) h31
  have hpos := Nat.two_pow_pos sh
  rw [BitVec.toInt_eq_toNat_of_lt (by rw [hbias]; split <;> omega), hbias]
  split
  · rw [Nat.cast_sub hpos]
    norm_cast
  · rfl

/-- The sum of dividend and bias never wraps (R83). -/
theorem add32_shiftBias_toInt {sh : Nat} (h1 : 1 ≤ sh) (h31 : sh ≤ 31) (n : Word) :
    (add32 n (shiftBias sh n)).toInt = n.toInt + (shiftBias sh n).toInt := by
  obtain ⟨hlo, hhi⟩ := word_bounds n
  have hbias := shiftBias_toInt h1 h31 n
  have hpow : (2 : Int) ^ sh ≤ 2 ^ 31 := pow_le_pow_right₀ (by decide) h31
  have hpos : (0 : Int) < 2 ^ sh := by positivity
  split at hbias
  · exact add32_toInt _ _ (by omega) (by omega)
  · exact add32_toInt _ _ (by omega) (by omega)

/-- Before the sign step U_SHIFT has the truncated quotient by the power (R81, R83). -/
theorem shiftMagnitudeQuotient_toInt {sh : Nat} (h31 : sh ≤ 31) (n : Word) :
    (shiftMagnitudeQuotient sh n).toInt = tdiv n.toInt (2 ^ sh) := by
  have hpos : (0 : Int) < 2 ^ sh := by positivity
  unfold shiftMagnitudeQuotient
  split
  · next h0 => rw [h0, pow_zero, tdiv_one]
  · next h0 =>
    rw [asr32_toInt, add32_shiftBias_toInt (by omega) h31, shiftBias_toInt (by omega) h31]
    split
    · next hn => rw [tdiv_of_neg hn hpos, add_sub_assoc]
    · next hn => rw [tdiv_of_nonneg (not_lt.mp hn) hpos, add_zero]

/-- The quotient before the sign step is `INT_MIN` only of `INT_MIN` itself, unshifted (R84). -/
theorem shiftMagnitudeQuotient_ne_intMin {sh : BitVec 5} {n : Word} (h : ¬(sh = 0#5 ∧ n = intMin)) :
    (shiftMagnitudeQuotient sh.toNat n).toInt ≠ -2147483648 := by
  have hsh := sh.isLt
  obtain ⟨hlo, hhi⟩ := word_bounds n
  by_cases h0 : sh = 0#5
  · subst h0
    intro hn
    exact h ⟨rfl, BitVec.eq_of_toInt_eq hn⟩
  · have hsh0 : sh.toNat ≠ 0 := fun h => h0 (BitVec.eq_of_toNat_eq h)
    have hpow : 2 ^ 1 ≤ 2 ^ sh.toNat := Nat.pow_le_pow_right (by decide) (by omega)
    have hle := natAbs_tdiv_le n.toInt (2 ^ sh.toNat)
    rw [Int.natAbs_pow, show (2 : Int).natAbs = 2 from rfl] at hle
    have hhalf := hle.trans (Nat.div_le_div_left hpow (by decide))
    rw [shiftMagnitudeQuotient_toInt (by omega)]
    omega

/-- U_SHIFT divides by the signed power, its one wrapped quotient excepted (R84, R87). -/
theorem shiftQuotient_toInt {sh : BitVec 5} {neg : Bool} {n : Word} (h : ¬(sh = 0#5 ∧ neg = true ∧ n = intMin)) :
    (shiftQuotient sh neg n).toInt = tdiv n.toInt (if neg then -2 ^ sh.toNat else 2 ^ sh.toNat) := by
  have hsh := sh.isLt
  rw [tdiv_ite_neg, ← shiftMagnitudeQuotient_toInt (by omega)]
  cases neg with
  | true => exact neg32_toInt _ (shiftMagnitudeQuotient_ne_intMin fun ⟨h0, hn⟩ => h ⟨h0, rfl, hn⟩)
  | false => rfl

end Sys2Proof.Machine
end

section
/-! PROOFS. What the constants of `derive` satisfy (42_magic_derivation.md R95, R96): the closed form of the multiplier,
and the bound with which the loop ended. -/

namespace Sys2Proof.Machine

section
variable {ad : Nat} {r t : Drv}

/-- The loop keeps its invariant and answers registers that have ended (R95, R99). -/
theorem DrvHolds.of_drvLoop (h : DrvHolds ad r) (he : drvEnded r = false) {n : Nat} (hl : drvLoop n r = some t) :
    DrvHolds ad t ∧ drvEnded t = true := by
  induction n generalizing r with
  | zero => cases hl
  | succ n ih =>
    rw [drvLoop] at hl
    cases he' : drvEnded (drvIterate r) with
    | true =>
      rw [if_pos he'] at hl
      cases hl
      exact ⟨h.iterate he, he'⟩
    | false =>
      rw [if_neg (by rw [he']; exact Bool.false_ne_true)] at hl
      exact ih (h.iterate he) he' hl

/-- Where the loop has ended the power `2^p` has passed `anc * delta` (R95). -/
theorem DrvHolds.lt_pow_of_ended (h : DrvHolds ad t) (he : drvEnded t = true) :
    32 ≤ t.p.toNat ∧ ancOf ad * (ad - 2 ^ t.p.toNat % ad) < 2 ^ t.p.toNat := by
  have hne : ¬(t.p.toNat < 32 ∨ drvContinues t = true) := fun hc => by
    cases he.symm.trans (drvEnded_eq_false_iff.mpr hc)
  have hp : 32 ≤ t.p.toNat := not_lt.mp fun hlt => hne (.inl hlt)
  exact ⟨hp, not_le.mp fun hle => hne (.inr ((h.continues_iff hp).mpr hle))⟩

/-- The quotient of the magnitude leaves room for the increment of R96: before the last iteration the power was at most
`anc * ad`. -/
theorem DrvHolds.quotient_succ_lt (h : DrvHolds ad t) (hp : 32 ≤ t.p.toNat) :
    2 ^ t.p.toNat / ad + 1 < 2 ^ 32 := by
  obtain ⟨h3, -, -⟩ := (inMagicDomain_iff ad).mp h.domain
  have hanc := (ancOf_bounds h.domain).2
  suffices 2 ^ t.p.toNat / ad ≤ 2 ^ 32 - 2 by omega
  apply Nat.div_le_of_le_mul
  rcases hp.eq_or_lt with h32 | hlt
  · rw [← h32]
    omega
  · have hc := h.continuedBefore (t.p.toNat - 1) (by omega) (by omega)
    calc 2 ^ t.p.toNat
      _ = 2 * 2 ^ (t.p.toNat - 1) := by rw [← Nat.pow_succ', Nat.succ_eq_add_one, Nat.sub_add_cancel (by omega)]
      _ ≤ 2 * (ancOf ad * ad) := Nat.mul_le_mul_left 2 (hc.trans (Nat.mul_le_mul_left _ (Nat.sub_le _ _)))
      _ = ad * (2 * ancOf ad) := by ring
      _ ≤ ad * (2 ^ 32 - 2) := Nat.mul_le_mul_left ad (by omega)

/-- The multiplier read off the registers is the quotient plus 1 (R96). -/
theorem DrvHolds.drvMultiplier_toNat (h : DrvHolds ad t) (hp : 32 ≤ t.p.toNat) :
    (drvMultiplier t).toNat = 2 ^ t.p.toNat / ad + 1 := by
  have hlt := h.quotient_succ_lt hp
  rw [drvMultiplier, BitVec.toNat_setWidth, BitVec.toNat_add, h.q2Is, BitVec.toNat_ofNat]
  generalize 2 ^ t.p.toNat / ad = q at hlt ⊢
  omega

end

/-- The constants of `derive` in closed form, and the bound its loop ended with (R95, R96, R98). -/
theorem derive_eq_some {ad sc : Nat} {m : Word} (h : derive ad = some (m, sc)) :
    inMagicDomain ad = true ∧ sc ≤ 30 ∧ m.toNat = 2 ^ (sc + 32) / ad + 1 ∧
      ancOf ad * (ad - 2 ^ (sc + 32) % ad) < 2 ^ (sc + 32) := by
  have hdom := inMagicDomain_of_derive h
  obtain ⟨-, h31, -⟩ := (inMagicDomain_iff ad).mp hdom
  have hword : (BitVec.ofNat 32 ad).toNat = ad := by
    rw [BitVec.toNat_ofNat]
    exact Nat.mod_eq_of_lt (by omega)
  rw [← hword] at hdom
  obtain ⟨t, hl, hderive⟩ := drvLoop_computes_derive Drv.reset hdom
  obtain ⟨hholds, hended⟩ := (drvStart_holds Drv.reset hdom).of_drvLoop (drvStart_not_ended _ _) hl
  rw [hword] at hdom hderive hholds
  obtain ⟨hp, hlt⟩ := hholds.lt_pow_of_ended hended
  have hm := hholds.drvMultiplier_toNat hp
  have hhigh := hholds.pHigh
  obtain ⟨rfl, rfl⟩ := Prod.mk.inj (Option.some.inj (h.symm.trans hderive))
  rw [Nat.sub_add_cancel hp]
  exact ⟨hdom, by omega, hm, hlt⟩

end Sys2Proof.Machine
end

section
/-! PROOFS. U_GEN divides: the high half, the correction and the post-shift are one floor of the product with the
multiplier read unsigned (43_general_strategy.md R111 to R116), and with the constants of `derive` that floor is the
truncated quotient (R117). -/

namespace Sys2Proof.Machine

/-! ### One floor of the whole product -/

theorem mulhs32_toInt (a b : Word) : (mulhs32 a b).toInt = a.toInt * b.toInt / 2 ^ 32 := by
  have hlo := BitVec.le_toInt_mul_toInt (x := a) (y := b)
  have hhi := BitVec.toInt_mul_toInt_le (x := a) (y := b)
  rw [mulhs32_eq_ofInt]
  apply BitVec.toInt_ofInt_eq_self (by decide) <;> omega

/-- A dividend times a fraction of at most 1, floored, is a 32-bit value again, of the dividend's sign or 0. -/
theorem mul_ediv_bounds (n : Word) {x b : Int} (hx : 0 ≤ x) (hxb : x ≤ b) (hb : 0 < b) :
    -2147483648 ≤ n.toInt * x / b ∧ n.toInt * x / b ≤ 2147483647 ∧
      (n.toInt < 0 → n.toInt * x / b ≤ 0) ∧ (0 ≤ n.toInt → 0 ≤ n.toInt * x / b) := by
  obtain ⟨hlo, hhi⟩ := word_bounds n
  refine ⟨(Int.le_ediv_iff_mul_le hb).mpr (by nlinarith), Int.ediv_le_of_le_mul hb (by nlinarith), fun hn => ?_,
    fun hn => Int.ediv_nonneg (mul_nonneg hn hx) hb.le⟩
  exact Int.ediv_nonpos_of_nonpos_of_neg (mul_nonpos_of_nonpos_of_nonneg hn.le hx) hb

/-- The correction reads the multiplier unsigned (R112). -/
theorem generalHigh_toInt (mc n : Word) : (generalHigh mc n).toInt = n.toInt * mc.toNat / 2 ^ 32 := by
  have hread := toInt_eq_toNat_sub mc
  have hmc := mc.isLt
  obtain ⟨hlo, hhi, -⟩ := mul_ediv_bounds n (x := mc.toNat) (b := 2 ^ 32) (by omega) (by omega) (by norm_num)
  have hhigh := mulhs32_toInt mc n
  unfold generalHigh
  cases hb : mc.getLsbD 31 with
  | true =>
    rw [hb, if_pos rfl] at hread
    rw [hread, show ((mc.toNat : Int) - 2 ^ 32) * n.toInt = n.toInt * mc.toNat + (-n.toInt) * 2 ^ 32 by ring,
      Int.add_mul_ediv_right _ _ (by norm_num)] at hhigh
    have hsum : (mulhs32 mc n).toInt + n.toInt = n.toInt * mc.toNat / 2 ^ 32 := by rw [hhigh, neg_add_cancel_right]
    rw [if_pos rfl, add32_toInt _ _ (by rwa [hsum]) (by rwa [hsum]), hsum]
  | false =>
    rw [hb, if_neg Bool.false_ne_true, sub_zero] at hread
    rw [if_neg Bool.false_ne_true, hhigh, hread, mul_comm]

/-- The post-shift makes it one floor of the whole product (R113). -/
theorem generalShifted_toInt (mc n : Word) (sc : Nat) :
    (generalShifted mc sc n).toInt = n.toInt * mc.toNat / 2 ^ (sc + 32) := by
  rw [generalShifted, asr32_toInt, generalHigh_toInt, Int.ediv_ediv_of_nonneg (by norm_num), ← pow_add, Nat.add_comm]

theorem signTerm_toInt (n : Word) : (signTerm n).toInt = if n.toInt < 0 then -1 else 0 := by
  obtain ⟨hlo, hhi⟩ := word_bounds n
  rw [signTerm, asr32_toInt]
  split <;> omega

/-- The final combine takes the sign term from the floor, in the order the sign of the divisor asks for, and never wraps
(R115, R116). -/
theorem generalQuotient_toInt (mc : Word) (sc : BitVec 5) (neg : Bool) (n : Word) {q : Int}
    (hq : n.toInt * mc.toNat / 2 ^ (sc.toNat + 32) - (if n.toInt < 0 then -1 else 0) = q) :
    (generalQuotient mc sc neg n).toInt = if neg then -q else q := by
  have hmc : (mc.toNat : Int) ≤ 2 ^ (sc.toNat + 32) := by
    have hle : 2 ^ 32 ≤ 2 ^ (sc.toNat + 32) := Nat.pow_le_pow_right (by decide) (by omega)
    exact_mod_cast mc.isLt.le.trans hle
  obtain ⟨hlo, hhi, hneg, hnonneg⟩ := mul_ediv_bounds n (Int.natCast_nonneg mc.toNat) hmc (by positivity)
  rw [← generalShifted_toInt] at hlo hhi hneg hnonneg hq
  rw [← signTerm_toInt] at hq
  have hsign := signTerm_toInt n
  have hbound : -2147483647 ≤ q ∧ q ≤ 2147483647 := by split at hsign <;> omega
  cases neg with
  | true => exact (sub32_toInt _ _ (by omega) (by omega)).trans (by rw [if_pos rfl, ← hq, neg_sub])
  | false => exact (sub32_toInt _ _ (by omega) (by omega)).trans hq

/-! ### The constants of `derive` -/

section
variable {ad k t : Nat}

/-- The remainder of `2^31` by any magnitude is below its half, so `anc` is not (R92). -/
theorem two_pow_thirty_le_ancOf (hdom : inMagicDomain ad = true) : 2 ^ 30 ≤ ancOf ad := by
  obtain ⟨h3, h31, -⟩ := (inMagicDomain_iff ad).mp hdom
  suffices 2 ^ 31 % ad < 2 ^ 30 by unfold ancOf two31; omega
  rcases Nat.lt_or_ge (2 ^ 30) ad with hbig | hsmall
  · have hle := Nat.mod_le (2 ^ 31 - ad) ad
    rw [Nat.mod_eq_sub_mod (by omega)]
    omega
  · exact (Nat.mod_lt _ (by omega)).trans_le hsmall

/-- `anc` is the greatest dividend right before a multiple of the magnitude (R92). -/
theorem le_ancOf_of_dvd_succ (hdvd : ad ∣ k + 1) (hk : k < 2 ^ 31) : k ≤ ancOf ad := by
  obtain ⟨q, hq⟩ := hdvd
  have hdm := Nat.div_add_mod (2 ^ 31) ad
  have had : 0 < ad := Nat.pos_of_ne_zero fun h0 => by rw [h0, Nat.zero_mul] at hq; omega
  have hle : q ≤ 2 ^ 31 / ad := (Nat.le_div_iff_mul_le had).mpr (by rw [Nat.mul_comm]; omega)
  have hmul := Nat.mul_le_mul_left ad hle
  unfold ancOf two31
  omega

/-- The bound the loop ended with, carried from `anc` to every dividend: one right before a multiple of the magnitude is
at most `anc`, and the remainder of any other leaves a factor of 2 (R92, R95). -/
theorem mul_delta_lt (hdom : inMagicDomain ad = true) (hend : ancOf ad * (ad - t % ad) < t) (hk : k < 2 ^ 31) :
    k * (ad - t % ad) < (ad - k % ad) * t := by
  have had : 0 < ad := by have := ((inMagicDomain_iff ad).mp hdom).1; omega
  have hmod := Nat.mod_lt k had
  rcases Nat.lt_or_ge (k % ad + 1) ad with hlt | hge
  · have hanc := two_pow_thirty_le_ancOf hdom
    calc k * (ad - t % ad)
      _ ≤ 2 * ancOf ad * (ad - t % ad) := Nat.mul_le_mul_right _ (by omega)
      _ < 2 * t := by rw [Nat.mul_assoc]; omega
      _ ≤ (ad - k % ad) * t := Nat.mul_le_mul_right _ (by omega)
  · have hdvd : ad ∣ k + 1 := ⟨k / ad + 1, by rw [Nat.mul_add]; have := Nat.div_add_mod k ad; omega⟩
    calc k * (ad - t % ad)
      _ ≤ ancOf ad * (ad - t % ad) := Nat.mul_le_mul_right _ (le_ancOf_of_dvd_succ hdvd hk)
      _ < t := hend
      _ ≤ (ad - k % ad) * t := Nat.le_mul_of_pos_left _ (by omega)

/-- For the magnitude of `INT_MIN` the bound holds of every power, without the loop: `delta` is the least positive
number congruent to `-t`, and `(ad - 2^31 % ad) * (t / 2^31)` is another. -/
theorem two_pow_mul_delta_le {e : Nat} (had : 0 < ad) :
    2 ^ 31 * (ad - 2 ^ 31 * 2 ^ e % ad) ≤ (ad - 2 ^ 31 % ad) * (2 ^ 31 * 2 ^ e) := by
  suffices ad - 2 ^ 31 * 2 ^ e % ad ≤ (ad - 2 ^ 31 % ad) * 2 ^ e by
    calc 2 ^ 31 * (ad - 2 ^ 31 * 2 ^ e % ad)
      _ ≤ 2 ^ 31 * ((ad - 2 ^ 31 % ad) * 2 ^ e) := Nat.mul_le_mul_left _ this
      _ = (ad - 2 ^ 31 % ad) * (2 ^ 31 * 2 ^ e) := Nat.mul_left_comm _ _ _
  have hmod := Nat.mod_lt (2 ^ 31) had
  have hdm := Nat.div_add_mod (2 ^ 31) ad
  have hpos : 0 < (ad - 2 ^ 31 % ad) * 2 ^ e := Nat.mul_pos (by omega) (Nat.two_pow_pos e)
  have hdvd : ad ∣ (ad - 2 ^ 31 % ad) * 2 ^ e + 2 ^ 31 * 2 ^ e := by
    rw [← Nat.add_mul]
    refine Dvd.dvd.mul_right ⟨2 ^ 31 / ad + 1, ?_⟩ _
    rw [Nat.mul_add]
    omega
  have hsum : ad ∣ (ad - 2 ^ 31 % ad) * 2 ^ e + 2 ^ 31 * 2 ^ e % ad := by
    rwa [Nat.dvd_iff_mod_eq_zero, Nat.add_mod_mod, ← Nat.dvd_iff_mod_eq_zero]
  have := Nat.le_of_dvd (by omega) hsum
  omega

end

/-- With the constants of `derive` the product of a magnitude and the multiplier lies in the bracket of its exact
quotient (R117): above the lower end if the magnitude is not 0, below the upper end if it is not that of `INT_MIN`. -/
theorem derive_bracket {ad sc k : Nat} {m : Word} (h : derive ad = some (m, sc)) (hk : k ≤ 2 ^ 31) :
    k / ad * 2 ^ (sc + 32) ≤ k * m.toNat ∧ (0 < k → k / ad * 2 ^ (sc + 32) < k * m.toNat) ∧
    k * m.toNat ≤ (k / ad + 1) * 2 ^ (sc + 32) ∧ (k < 2 ^ 31 → k * m.toNat < (k / ad + 1) * 2 ^ (sc + 32)) := by
  obtain ⟨hdom, -, hm, hend⟩ := derive_eq_some h
  obtain ⟨h3, -, -⟩ := (inMagicDomain_iff ad).mp hdom
  have had : 0 < ad := by omega
  have hlt : k < 2 ^ 31 → k * (ad - 2 ^ (sc + 32) % ad) < (ad - k % ad) * 2 ^ (sc + 32) := mul_delta_lt hdom hend
  have hle : k * (ad - 2 ^ (sc + 32) % ad) ≤ (ad - k % ad) * 2 ^ (sc + 32) := by
    rcases hk.eq_or_lt with rfl | hk
    · rw [show 2 ^ (sc + 32) = 2 ^ 31 * 2 ^ (sc + 1) by rw [← pow_add]; congr 1; omega]
      exact two_pow_mul_delta_le had
    · exact (hlt hk).le
  have hdelta : 0 < ad - 2 ^ (sc + 32) % ad := Nat.sub_pos_of_lt (Nat.mod_lt _ had)
  have hpos : 0 < k → 0 < k * (ad - 2 ^ (sc + 32) % ad) := fun hk => Nat.mul_pos hk hdelta
  have hmad : ad * m.toNat = 2 ^ (sc + 32) + (ad - 2 ^ (sc + 32) % ad) := by
    have hdm := Nat.div_add_mod (2 ^ (sc + 32)) ad
    rw [hm, Nat.mul_add]
    omega
  have hprod : ad * (k * m.toNat) =
      ad * (k / ad * 2 ^ (sc + 32)) + (k % ad * 2 ^ (sc + 32) + k * (ad - 2 ^ (sc + 32) % ad)) := by
    rw [Nat.mul_left_comm, hmad, Nat.mul_add, ← Nat.add_assoc, ← Nat.mul_assoc, ← Nat.add_mul, Nat.div_add_mod]
  have hsum : k % ad * 2 ^ (sc + 32) + (ad - k % ad) * 2 ^ (sc + 32) = ad * 2 ^ (sc + 32) := by
    rw [← Nat.add_mul, Nat.add_sub_cancel' (Nat.mod_lt k had).le]
  have hsucc : ad * ((k / ad + 1) * 2 ^ (sc + 32)) = ad * (k / ad * 2 ^ (sc + 32)) + ad * 2 ^ (sc + 32) := by
    rw [Nat.add_mul, Nat.one_mul, Nat.mul_add]
  refine ⟨Nat.le_of_mul_le_mul_left ?_ had, fun hk => Nat.lt_of_mul_lt_mul_left (a := ad) ?_,
    Nat.le_of_mul_le_mul_left ?_ had, fun hk => Nat.lt_of_mul_lt_mul_left (a := ad) ?_⟩
  · omega
  · have := hpos hk; omega
  · omega
  · have := hlt hk; omega

/-- With the constants of `derive` the floor of the product, less the sign term, is the truncated quotient (R117). -/
theorem derive_floor_eq_tdiv {ad sc : Nat} {m : Word} (h : derive ad = some (m, sc)) (n : Word) :
    n.toInt * m.toNat / 2 ^ (sc + 32) - (if n.toInt < 0 then -1 else 0) = tdiv n.toInt ad := by
  obtain ⟨hlo, hhi⟩ := word_bounds n
  have had : 0 < ad := by have := ((inMagicDomain_iff ad).mp (derive_eq_some h).1).1; omega
  have hpow : (0 : Int) < 2 ^ (sc + 32) := by positivity
  rcases lt_or_ge n.toInt 0 with hn | hn
  · obtain ⟨k, hk⟩ : ∃ k : Nat, n.toInt = -k := ⟨n.toInt.natAbs, by omega⟩
    obtain ⟨-, hlow, hupp, -⟩ := derive_bracket h (k := k) (by omega)
    have hlow' := hlow (by omega)
    rw [if_pos hn, hk, tdiv_neg_left, tdiv_of_nonneg (Int.natCast_nonneg k) (by exact_mod_cast had)]
    have hq : -(k : Int) * m.toNat / 2 ^ (sc + 32) = -((k / ad : Nat) + 1) := by
      rw [Int.ediv_eq_iff_of_pos hpow]
      zify at hlow' hupp ⊢
      constructor <;> linarith
    rw [hq, Int.natCast_div]
    ring
  · obtain ⟨k, hk⟩ : ∃ k : Nat, n.toInt = k := ⟨n.toInt.toNat, by omega⟩
    obtain ⟨hlow, -, -, hupp⟩ := derive_bracket h (k := k) (by omega)
    have hupp' := hupp (by omega)
    rw [if_neg (not_lt.mpr hn), sub_zero, hk, tdiv_of_nonneg (Int.natCast_nonneg k) (by exact_mod_cast had),
      Int.ediv_eq_iff_of_pos hpow]
    zify at hlow hupp'
    constructor <;> linarith

/-- U_GEN divides by the signed magnitude whose constants it is given (R117). -/
theorem generalQuotient_of_derive {ad sc : Nat} {m : Word} (h : derive ad = some (m, sc)) (neg : Bool) (n : Word) :
    (generalQuotient m (BitVec.ofNat 5 sc) neg n).toInt = tdiv n.toInt (if neg then -(ad : Int) else ad) := by
  obtain ⟨-, hsc, -⟩ := derive_eq_some h
  have hread : (BitVec.ofNat 5 sc).toNat = sc := by
    rw [BitVec.toNat_ofNat]
    omega
  rw [tdiv_ite_neg]
  apply generalQuotient_toInt
  rw [hread, derive_floor_eq_tdiv h]

end Sys2Proof.Machine
end

section
/-! PROOFS. The two commands of U_DISP (40_dispatcher.md): which descriptor `MKDIV` answers for each divisor, and what
`DIV` of it answers. -/

namespace Sys2Proof.Machine

/-! ### Sign, magnitude and highest set bit (R62, R63) -/

theorem getLsbD_highestBit {a : Word} (h : a ≠ 0#32) : a.getLsbD (highestBit a) = true := by
  obtain ⟨hz, hlo, hhi⟩ := clz32_bounds h
  have hk : highestBit a + 1 = 32 - clz32 a := by unfold highestBit; omega
  refine Nat.testBit_of_two_pow_le_and_two_pow_add_one_gt hlo ?_
  rwa [hk]

theorem getLsbD_above_highestBit {a : Word} (h : a ≠ 0#32) {j : Nat} (hj : highestBit a < j) :
    a.getLsbD j = false := by
  obtain ⟨-, -, hhi⟩ := clz32_bounds h
  unfold highestBit at hj
  exact Nat.testBit_lt_two_pow (hhi.trans_le (Nat.pow_le_pow_right (by decide) (by omega)))

/-- Settles O22: sign and magnitude over the integers, and the bits from the bounds of `clz32`. -/
theorem magnitudeAndHighestBitOfTheDivisor : Obligations.MagnitudeAndHighestBitOfTheDivisor := by
  intro d
  refine ⟨by rw [divisorNeg_eq, decide_eq_true_iff], rfl, rfl, magnitude_toNat d, by decide, by decide, by decide,
    by decide, fun hd => ?_⟩
  have hne := magnitude_ne_zero hd
  have hpos : (magnitude d).toNat ≠ 0 := fun h0 => hne (BitVec.eq_of_toNat_eq h0)
  exact ⟨by omega, magnitude_le d, (clz32_bounds hne).1, rfl, Nat.sub_le _ _, getLsbD_highestBit hne,
    fun j => getLsbD_above_highestBit hne⟩

/-! ### The descriptor of a divisor (R64 to R66) -/

/-- A divisor that is not 0 has a power of two as its magnitude or one that is in the domain of U_MAGIC. -/
theorem two_pow_or_inMagicDomain {d : Word} (hd : d ≠ 0#32) :
    (∃ k, k ≤ 31 ∧ d.toInt.natAbs = 2 ^ k) ∨ inMagicDomain d.toInt.natAbs = true := by
  rw [← magnitude_toNat]
  cases hc : classify d with
  | zero => exact absurd (classify_eq_zero hc) hd
  | shift neg k =>
    obtain ⟨-, hk, hpow⟩ := classify_eq_shift hc
    exact .inl ⟨k, by omega, hpow⟩
  | general neg ad =>
    have hdom := inMagicDomain_of_classify hc
    obtain ⟨-, -, rfl, -⟩ := classify_eq_general hc
    exact .inr hdom

/-- `D` is the descriptor of the divisor `d` (R65, R66). -/
inductive Describes (d : Word) : Descriptor → Prop
  | shift {k : Nat} (hk : k ≤ 31) (hpow : d.toInt.natAbs = 2 ^ k) :
      Describes d (shiftDescriptor (decide (d.toInt < 0)) k)
  | magic {sc : Nat} {m : Word} (hderive : derive d.toInt.natAbs = some (m, sc)) :
      Describes d (magicDescriptor (decide (d.toInt < 0)) (BitVec.ofNat 5 sc) m)

/-- A divisor has one descriptor. -/
theorem Describes.unique {d : Word} {D D' : Descriptor} (h : Describes d D) (h' : Describes d D') : D = D' := by
  have hmixed : ∀ {k sc m}, k ≤ 31 → d.toInt.natAbs = 2 ^ k → derive d.toInt.natAbs ≠ some (m, sc) :=
    fun hk hpow hderive =>
      ((inMagicDomain_iff _).mp (inMagicDomain_of_derive hderive)).2.2 _ (Nat.lt_succ_of_le hk) hpow
  cases h with
  | shift hk hpow =>
    cases h' with
    | shift hk' hpow' => rw [Nat.pow_right_injective le_rfl (hpow.symm.trans hpow')]
    | magic hderive => exact absurd hderive (hmixed hk hpow)
  | magic hderive =>
    cases h' with
    | shift hk hpow => exact absurd hderive (hmixed hk hpow)
    | magic hderive' =>
      obtain ⟨rfl, rfl⟩ := Prod.mk.inj (Option.some.inj (hderive.symm.trans hderive'))
      rfl

/-! ### The answer to `MKDIV` -/

section
variable {d : Word} {s : State}

theorem exec_mkdiv (hph : s.ph = .idle) : exec (.mkdiv d) s = runMkdiv d (acceptWord (encode (.mkdiv d)) s) := by
  rw [exec, execMkdiv, whenIdle_idle hph]

/-- A power of two is answered with its SHIFT descriptor, from the state its `accept` leaves (R65). -/
theorem exec_mkdiv_of_two_pow (hph : s.ph = .idle) {k : Nat} (hpow : d.toInt.natAbs = 2 ^ k) :
    exec (.mkdiv d) s =
      .next (respond (descriptorResponse (shiftDescriptor (decide (d.toInt < 0)) k))
        (acceptWord (encode (.mkdiv d)) s)) := by
  rw [exec_mkdiv hph]
  simp only [runMkdiv, answerMkdiv, classify_of_natAbs_eq_two_pow hpow]

/-- Any other divisor is answered with the MAGIC descriptor of the constants of `derive` (R66). -/
theorem exec_mkdiv_of_inMagicDomain (hph : s.ph = .idle) (hdom : inMagicDomain d.toInt.natAbs = true) :
    ∃ m sc r, derive d.toInt.natAbs = some (m, sc) ∧
      exec (.mkdiv d) s =
        .next (respond (descriptorResponse (magicDescriptor (decide (d.toInt < 0)) (BitVec.ofNat 5 sc) m))
          { acceptWord (encode (.mkdiv d)) s with drv := r }) := by
  rw [exec_mkdiv hph, ← magnitude_toNat]
  exact runMkdiv_general (classify_of_inMagicDomain hdom) _

/-- `MKDIV` of a divisor that is not 0 answers the descriptor of the divisor, with some content of the working
registers. -/
theorem exec_mkdiv_describes (hph : s.ph = .idle) (hd : d ≠ 0#32) :
    ∃ D r, Describes d D ∧
      exec (.mkdiv d) s =
        .next (respond (descriptorResponse D) { acceptWord (encode (.mkdiv d)) s with drv := r }) := by
  rcases two_pow_or_inMagicDomain hd with ⟨k, hk, hpow⟩ | hdom
  · exact ⟨_, s.drv, .shift hk hpow, exec_mkdiv_of_two_pow hph hpow⟩
  · obtain ⟨m, sc, r, hderive, hexec⟩ := exec_mkdiv_of_inMagicDomain hph hdom
    exact ⟨_, r, .magic hderive, hexec⟩

end

/-- Settles O24: the answer to a power of two, read off field by field. -/
theorem mkdivOfPowerOfTwoResponds : Obligations.MkdivOfPowerOfTwoResponds := by
  intro d k s hph _ hpow
  exact ⟨_, exec_mkdiv_of_two_pow hph hpow, rfl, rfl, rfl, rfl⟩

/-- Settles O25: the magnitude is in the domain of U_MAGIC, and the answer carries the constants of `derive`. -/
theorem mkdivOfGeneralDivisorResponds : Obligations.MkdivOfGeneralDivisorResponds := by
  intro d s hph hd hpow
  have hdom := (two_pow_or_inMagicDomain hd).resolve_left hpow
  obtain ⟨m, sc, r, hderive, hexec⟩ := exec_mkdiv_of_inMagicDomain hph hdom
  exact ⟨hdom, m, sc, _, hderive, (derive_eq_some hderive).2.1, hexec, rfl, rfl, rfl, rfl⟩

/-- Settles O21: the class of 0 is its own, and its answer is the fault entry. -/
theorem mkdivZeroTakesDivisorZero : Obligations.MkdivZeroTakesDivisorZero := by
  intro s hph
  exact ⟨raiseFault .divisorZero (acceptWord (encode (.mkdiv 0#32)) s), exec_mkdiv hph, rfl, rfl, rfl, rfl⟩

/-! ### Reading the descriptor off the response (R43, R47) -/

theorem descriptorResponse_payload (D : Descriptor) : (descriptorResponse D).extractLsb' 0 40 = descWord D :=
  responseWord_payload _ _

theorem descriptorResponse_status (D : Descriptor) : (descriptorResponse D).extractLsb' 40 8 = 0x00#8 :=
  responseWord_status _ _

theorem descriptorResponse_tag (D : Descriptor) : (descriptorResponse D).extractLsb' 38 2 = D.tag :=
  calc (descriptorResponse D).extractLsb' 38 2
    _ = ((descriptorResponse D).extractLsb' 0 40).extractLsb' 38 2 :=
        (extractLsb'_extractLsb' _ (show 38 + 2 ≤ 40 by decide)).symm
    _ = (descFields (descWord D)).tag := by rw [descriptorResponse_payload]; rfl
    _ = D.tag := by rw [descFields_descWord]

theorem descriptorResponse_injective {D D' : Descriptor} (h : descriptorResponse D = descriptorResponse D') :
    D = D' := by
  rw [← descFields_descWord D, ← descriptorResponse_payload, h, descriptorResponse_payload, descFields_descWord]

/-- Settles O23: each class of divisors has its tag. -/
theorem routingFollowsThePowerOfTwo : Obligations.RoutingFollowsThePowerOfTwo := by
  intro d s hph hd
  by_cases hpow : ∃ k, k ≤ 31 ∧ d.toInt.natAbs = 2 ^ k
  · obtain ⟨k, hk, hk'⟩ := hpow
    exact ⟨_, _, exec_mkdiv_of_two_pow hph hk', rfl, fun _ => descriptorResponse_tag _,
      fun hne => absurd ⟨k, hk, hk'⟩ hne⟩
  · obtain ⟨m, sc, r, -, hexec⟩ :=
      exec_mkdiv_of_inMagicDomain hph ((two_pow_or_inMagicDomain hd).resolve_left hpow)
    exact ⟨_, _, hexec, rfl, fun hpow' => absurd hpow' hpow, fun _ => descriptorResponse_tag _⟩

/-! ### `DIV` of the descriptor of a divisor (R69 to R71) -/

section
variable {s : State}

/-- `DIV` of a SHIFT descriptor answers what U_SHIFT computes (R69). -/
theorem runWord_div_shiftDescriptor (hph : s.ph = .idle) (neg : Bool) (k : Nat) (n : Word) :
    ∃ c, runWord (0x02#8 ++ descWord (shiftDescriptor neg k) ++ n) s =
      .next (respond
        (quotientResponse (shiftQuotient (BitVec.ofNat 5 k) neg n) (shiftOverflow (BitVec.ofNat 5 k) neg n))
        (acceptWord c s)) := by
  have hdec : decode (0x02#8 ++ descWord (shiftDescriptor neg k) ++ n) = .ok (.divS neg (BitVec.ofNat 5 k) n) :=
    decode_encode (.divS neg (BitVec.ofNat 5 k) n)
  rw [runWord_ok hdec, exec, execDivS, whenIdle_idle hph]
  exact ⟨_, rfl⟩

/-- `DIV` of a MAGIC descriptor answers what U_GEN computes (R70). -/
theorem runWord_div_magicDescriptor (hph : s.ph = .idle) (neg : Bool) (sh : BitVec 5) (mc n : Word) :
    ∃ c, runWord (0x02#8 ++ descWord (magicDescriptor neg sh mc) ++ n) s =
      .next (respond (quotientResponse (generalQuotient mc sh neg n) false) (acceptWord c s)) := by
  have hdec : decode (0x02#8 ++ descWord (magicDescriptor neg sh mc) ++ n) = .ok (.divM neg sh mc n) :=
    decode_encode (.divM neg sh mc n)
  rw [runWord_ok hdec, exec, execDivM, whenIdle_idle hph]
  exact ⟨_, rfl⟩

theorem sign_ite_natAbs (d : Int) : (if decide (d < 0) then -(d.natAbs : Int) else d.natAbs) = d := by
  split
  · next h => have := of_decide_eq_true h; omega
  · next h => have := mt decide_eq_true h; omega

/-- Of the SHIFT descriptors only that of -1 has `SH = 0` and `NEG = 1`. -/
theorem eq_neg_one_of_shift_zero {d : Word} {k : Nat} (hk : k ≤ 31) (hpow : d.toInt.natAbs = 2 ^ k)
    (h0 : BitVec.ofNat 5 k = 0#5) (hneg : d.toInt < 0) : d = 0xFFFFFFFF#32 := by
  have hk0 : k = 0 := by
    have h := congrArg BitVec.toNat h0
    rw [BitVec.toNat_ofNat, BitVec.toNat_zero] at h
    omega
  rw [hk0, pow_zero] at hpow
  apply BitVec.eq_of_toInt_eq
  rw [show (0xFFFFFFFF#32).toInt = -1 from rfl]
  omega

/-- `DIV` of the descriptor of `d` answers the truncated quotient by `d`, with no flag, but for the pair of R74. -/
theorem runWord_div_of_describes {d n : Word} {D : Descriptor} (h : Describes d D) (hph : s.ph = .idle)
    (hpair : ¬(d = 0xFFFFFFFF#32 ∧ n = intMin)) :
    ∃ q c, runWord (0x02#8 ++ descWord D ++ n) s = .next (respond (quotientResponse q false) (acceptWord c s)) ∧
      q.toInt = tdiv n.toInt d.toInt := by
  cases h with
  | @shift k hk hpow =>
    have hwrap : ¬(BitVec.ofNat 5 k = 0#5 ∧ decide (d.toInt < 0) = true ∧ n = intMin) := fun ⟨h0, hneg, hn⟩ =>
      hpair ⟨eq_neg_one_of_shift_zero hk hpow h0 (of_decide_eq_true hneg), hn⟩
    have hovf : shiftOverflow (BitVec.ofNat 5 k) (decide (d.toInt < 0)) n = false :=
      Bool.eq_false_iff.mpr fun hovf =>
        have ⟨hneg, h0, hn⟩ := (shiftOverflow_iff _ _ _).mp hovf
        hwrap ⟨h0, hneg, hn⟩
    obtain ⟨c, hrun⟩ := runWord_div_shiftDescriptor hph (decide (d.toInt < 0)) k n
    rw [hovf] at hrun
    refine ⟨_, c, hrun, ?_⟩
    have hcast : (2 : Int) ^ (BitVec.ofNat 5 k).toNat = d.toInt.natAbs := by
      rw [BitVec.toNat_ofNat, Nat.mod_eq_of_lt (by omega), hpow]
      norm_cast
    rw [shiftQuotient_toInt hwrap, hcast, sign_ite_natAbs]
  | magic hderive =>
    obtain ⟨c, hrun⟩ := runWord_div_magicDescriptor hph (decide (d.toInt < 0)) _ _ n
    refine ⟨_, c, hrun, ?_⟩
    rw [generalQuotient_of_derive hderive, sign_ite_natAbs]

end

/-- A quotient response is its upper half and the quotient (R47, R49). -/
theorem quotientResponse_eq_append (q : Word) (ovf : Bool) :
    quotientResponse q ovf = (statusByte 0#4 ovf ++ 0#8) ++ q := by
  rw [BitVec.append_assoc, BitVec.cast_eq]
  rfl

theorem quotientResponse_high (q : Word) (ovf : Bool) :
    (quotientResponse q ovf).extractLsb' 32 16 = statusByte 0#4 ovf ++ 0#8 := by
  rw [quotientResponse_eq_append]
  exact BitVec.extractLsb'_append_eq_left

theorem quotientResponse_quotient (q : Word) (ovf : Bool) : (quotientResponse q ovf).extractLsb' 0 32 = q := by
  rw [quotientResponse_eq_append]
  exact BitVec.extractLsb'_append_eq_right

/-- Settles O48: `MKDIV` answers the descriptor of the divisor, and `DIV` of it answers the truncated quotient. -/
theorem mkdivThenDivIsTruncatingDivision : Obligations.MkdivThenDivIsTruncatingDivision := by
  intro d n s hph hd hpair
  obtain ⟨D, r, hD, hexec⟩ := exec_mkdiv_describes hph hd
  refine ⟨_, _, hexec, rfl, rfl, descriptorResponse_status D, ?_⟩
  rw [descriptorResponse_payload]
  obtain ⟨q, c, hrun, hq⟩ := runWord_div_of_describes hD (respond_ph _ _) hpair
  refine ⟨_, _, hrun, rfl, rfl, quotientResponse_high q false, ?_, rfl, rfl⟩
  rw [quotientResponse_quotient, hq]

/-- Settles O49: the divisor is `-2^31`, by which the truncated quotient of any dividend but `INT_MIN` is 0. -/
theorem divisorIntMinIsAShift : Obligations.DivisorIntMinIsAShift := by
  intro n s hph
  have hpow : intMin.toInt.natAbs = 2 ^ 31 := by decide
  obtain ⟨q, c, hrun, hq⟩ := runWord_div_of_describes (n := n)
    (s := respond (descriptorResponse (shiftDescriptor true 31)) (acceptWord (encode (.mkdiv intMin)) s))
    (Describes.shift (d := intMin) (k := 31) le_rfl hpow) rfl (fun h => absurd h.1 (by decide))
  refine ⟨_, _, exec_mkdiv_of_two_pow hph hpow, rfl, hrun, ?_⟩
  by_cases hn : n = intMin
  · subst hn
    obtain rfl : q = 1#32 := BitVec.eq_of_toInt_eq (hq.trans (by decide))
    rfl
  · have hne : n.toInt ≠ intMin.toInt := fun h => hn (BitVec.eq_of_toInt_eq h)
    have hzero : (tdiv n.toInt intMin.toInt).natAbs = 0 := by
      have hle := natAbs_tdiv_le n.toInt intMin.toInt
      have hbounds := word_bounds n
      rw [show intMin.toInt.natAbs = 2147483648 from rfl] at hle
      rw [show intMin.toInt = -2147483648 from rfl] at hne
      omega
    obtain rfl : q = 0#32 := BitVec.eq_of_toInt_eq (hq.trans (Int.natAbs_eq_zero.mp hzero))
    rw [if_neg hn]
    rfl

/-- Settles O50: -1 has the magnitude `2^0`, so the pair is met in U_SHIFT with `SH = 0` and `NEG = 1`. -/
theorem intMinByMinusOneWrapsAndFlags : Obligations.IntMinByMinusOneWrapsAndFlags := by
  intro s hph
  have hpow : (0xFFFFFFFF#32).toInt.natAbs = 2 ^ 0 := by decide
  obtain ⟨c, hrun⟩ := runWord_div_shiftDescriptor
    (s := respond (descriptorResponse (shiftDescriptor true 0)) (acceptWord (encode (.mkdiv 0xFFFFFFFF#32)) s))
    rfl true 0 intMin
  exact ⟨_, _, exec_mkdiv_of_two_pow hph hpow, rfl, hrun, rfl, rfl, rfl⟩

/-! ### The descriptor determines the divisor (R67) -/

/-- Two divisors with one descriptor have the same quotients, the pair of R74 excepted for each. -/
theorem tdiv_eq_of_describes {d d' n : Word} {D : Descriptor} (h : Describes d D) (h' : Describes d' D)
    (hpair : ¬(d = 0xFFFFFFFF#32 ∧ n = intMin)) (hpair' : ¬(d' = 0xFFFFFFFF#32 ∧ n = intMin)) :
    tdiv n.toInt d.toInt = tdiv n.toInt d'.toInt := by
  obtain ⟨q, c, hrun, hq⟩ := runWord_div_of_describes (s := State.reset) h rfl hpair
  obtain ⟨q', c', hrun', hq'⟩ := runWord_div_of_describes (s := State.reset) h' rfl hpair'
  have hport := congrArg State.port (Host.Outcome.next.inj (hrun.symm.trans hrun'))
  have hqq : q = q' := by
    rw [← quotientResponse_quotient q false, Option.some.inj hport, quotientResponse_quotient]
  rw [← hq, ← hq', hqq]

theorem Describes.ne_zero {d : Word} {D : Descriptor} (h : Describes d D) : d ≠ 0#32 := by
  rintro rfl
  cases h with
  | shift _ hpow => exact absurd hpow.symm (Nat.two_pow_pos _).ne'
  | magic hderive => exact absurd (inMagicDomain_of_derive hderive) (by decide)

/-- The two divisors of the pair of R74 have different shifts. -/
theorem Describes.ne_neg_one_and_intMin {d d' : Word} {D : Descriptor} (h : Describes d D) (h' : Describes d' D) :
    ¬(d = 0xFFFFFFFF#32 ∧ d' = intMin) := by
  rintro ⟨rfl, rfl⟩
  have hone := h.unique (.shift (k := 0) (by decide) (by decide))
  have hmin := h'.unique (.shift (k := 31) (by decide) (by decide))
  exact absurd (hone.symm.trans hmin) (by decide)

theorem tdiv_self {n : Int} (hn : n ≠ 0) : tdiv n n = 1 := by
  rw [tdiv, Nat.div_self (Int.natAbs_pos.mpr hn), Nat.cast_one, mul_one, ← Int.sign_mul,
    Int.sign_eq_one_of_pos (mul_self_pos.mpr hn)]

/-- A quotient of 1 says that the signs agree and the divisor is no larger than the dividend. -/
theorem of_tdiv_eq_one {n d : Int} (h : tdiv n d = 1) : n.sign = d.sign ∧ d.natAbs ≤ n.natAbs := by
  constructor
  · rcases Int.mul_eq_one_iff_eq_one_or_neg_one.mp h with ⟨hsign, -⟩ | ⟨-, hquot⟩
    · rcases Int.mul_eq_one_iff_eq_one_or_neg_one.mp hsign with ⟨hn, hd⟩ | ⟨hn, hd⟩
      · rw [hn, hd]
      · rw [hn, hd]
    · have := Int.natCast_nonneg (n.natAbs / d.natAbs)
      omega
  · by_contra hlt
    rw [tdiv, Nat.div_eq_of_lt (by omega), Nat.cast_zero, mul_zero] at h
    exact absurd h (by decide)

/-- One descriptor has one divisor: each of two would divide the other with quotient 1. -/
theorem Describes.injective {d d' : Word} {D : Descriptor} (h : Describes d D) (h' : Describes d' D) : d = d' := by
  have hne : ∀ {x : Word}, x ≠ 0#32 → x.toInt ≠ 0 := fun hx h0 => hx (BitVec.eq_of_toInt_eq h0)
  have hself : ∀ {x : Word}, ¬(x = 0xFFFFFFFF#32 ∧ x = intMin) := fun ⟨h1, h2⟩ =>
    absurd (h1.symm.trans h2) (by decide)
  have h1 := tdiv_eq_of_describes (n := d) h h' hself (h'.ne_neg_one_and_intMin h)
  have h2 := tdiv_eq_of_describes (n := d') h' h hself (h.ne_neg_one_and_intMin h')
  rw [tdiv_self (hne h.ne_zero)] at h1
  rw [tdiv_self (hne h'.ne_zero)] at h2
  obtain ⟨hsign, hle⟩ := of_tdiv_eq_one h1.symm
  obtain ⟨-, hge⟩ := of_tdiv_eq_one h2.symm
  apply BitVec.eq_of_toInt_eq
  rw [← Int.sign_mul_natAbs d.toInt, hsign, hge.antisymm hle, Int.sign_mul_natAbs]

/-- Settles O26: the response is that of the divisor's descriptor, which the divisor determines and which determines the
divisor. -/
theorem descriptorDeterminesTheDivisor : Obligations.DescriptorDeterminesTheDivisor := by
  intro d d' s s' t t' hph hph' hd hd' hexec hexec'
  obtain ⟨D, r, hD, hD_exec⟩ := exec_mkdiv_describes hph hd
  obtain ⟨D', r', hD', hD'_exec⟩ := exec_mkdiv_describes hph' hd'
  cases hexec.symm.trans hD_exec
  cases hexec'.symm.trans hD'_exec
  rw [respond_port, respond_port, Option.some.injEq]
  constructor
  · intro hport
    rw [← descriptorResponse_injective hport] at hD'
    exact hD.injective hD'
  · rintro rfl
    rw [hD.unique hD']

end Sys2Proof.Machine
end

section
/-! PROOFS. The statements about U_SHIFT and `DIV.S` (41_shift_strategy.md R80 to R87; 40_dispatcher.md R69). -/

namespace Sys2Proof.Machine

/-! ### The quotient before the sign step -/

theorem shiftMagnitudeQuotient_zero (n : Word) : shiftMagnitudeQuotient 0 n = n := if_pos rfl

theorem shiftMagnitudeQuotient_of_ne_zero {sh : Nat} (h : sh ≠ 0) (n : Word) :
    shiftMagnitudeQuotient sh n = asr32 (add32 n (shiftBias sh n)) sh := if_neg h

/-- A shift by at least one bit leaves 31 bits: even the sum of dividend and bias halves (R84). -/
theorem shiftMagnitudeQuotient_bounds {sh : Nat} (h : sh ≠ 0) (n : Word) :
    -2 ^ 30 ≤ (shiftMagnitudeQuotient sh n).toInt ∧ (shiftMagnitudeQuotient sh n).toInt ≤ 2 ^ 30 - 1 := by
  obtain ⟨hlo, hhi⟩ := word_bounds (add32 n (shiftBias sh n))
  have hpow : (2 : Int) ^ 1 ≤ 2 ^ sh := pow_le_pow_right₀ (by decide) (by omega)
  have hpos : (0 : Int) < 2 ^ sh := by positivity
  rw [shiftMagnitudeQuotient_of_ne_zero h, asr32_toInt]
  constructor
  · rw [Int.le_ediv_iff_mul_le hpos]
    omega
  · rw [Int.le_sub_one_iff, Int.ediv_lt_iff_lt_mul hpos]
    omega

/-- The arithmetic shift by `sh - 1` fills the top `sh` bits with the sign (R82). -/
theorem getLsbD_asr32_pred {sh j : Nat} (hlo : 32 - sh ≤ j) (hhi : j < 32) (n : Word) :
    (asr32 n (sh - 1)).getLsbD j = n.getLsbD 31 := by
  rw [asr32, BitVec.getLsbD_sshiftRight, decide_eq_false (by omega), Bool.not_false, Bool.true_and]
  split
  · next hlt => rw [show sh - 1 + j = 31 by omega]
  · rfl

/-- Settles O37: the first shift leaves copies of the sign in the `sh` bits that the second brings to the bottom. -/
theorem shiftBiasIsTheSignMask : Obligations.ShiftBiasIsTheSignMask := by
  intro sh n h1 h31
  have hbias := shiftBias_toNat h1 h31 n
  refine ⟨rfl, fun j hlo hhi => getLsbD_asr32_pred hlo hhi n, fun hn => ?_, fun hn => ?_⟩
  · rw [hbias, if_pos hn]
  · rw [if_neg (not_lt.mpr hn)] at hbias
    exact BitVec.eq_of_toNat_eq hbias

/-- The bias is no negative number, so it reads the same signed and unsigned. -/
theorem shiftBias_toInt_eq_toNat {sh : Nat} (h1 : 1 ≤ sh) (h31 : sh ≤ 31) (n : Word) :
    (shiftBias sh n).toInt = (shiftBias sh n).toNat := by
  rw [shiftBias_toInt h1 h31, shiftBias_toNat h1 h31]
  split
  · rw [Nat.cast_pred (Nat.two_pow_pos sh)]
    norm_cast
  · rfl

/-- Settles O38: with the bias the shift gives the ceiling of a negative dividend's quotient and the floor of any
other's. -/
theorem shiftQuotientTruncates : Obligations.ShiftQuotientTruncates := by
  intro sh n h1 h31
  have hpos : (0 : Int) < 2 ^ sh := by positivity
  have hpow : (2 : Int) ^ sh ≤ 2 ^ 31 := pow_le_pow_right₀ (by decide) h31
  have htdiv := shiftMagnitudeQuotient_toInt h31 n
  refine ⟨shiftMagnitudeQuotient_of_ne_zero (by omega) n, ?_, fun hn => ⟨by omega, ?_⟩, fun hn => ?_, htdiv⟩
  · rw [add32_shiftBias_toInt h1 h31, shiftBias_toInt_eq_toNat h1 h31]
  · rw [htdiv, tdiv_of_neg hn hpos]
  · rw [htdiv, tdiv_of_nonneg hn hpos]

/-! ### The sign step and the flag -/

/-- Settles O39: the sign step is on every path, and after a shift by at least one bit it is far from wrapping. -/
theorem shiftSignIsAppliedForEveryShift : Obligations.ShiftSignIsAppliedForEveryShift := by
  intro sh neg n
  refine ⟨fun hneg => if_pos hneg, fun hneg => if_neg (Bool.eq_false_iff.mp hneg), ?_, fun h0 => ?_⟩
  · rintro rfl
    exact shiftMagnitudeQuotient_zero n
  · obtain ⟨hlo, hhi⟩ := shiftMagnitudeQuotient_bounds (fun hz => h0 (BitVec.eq_of_toNat_eq hz)) n
    exact ⟨hlo, hhi, neg32_toInt _ (by omega)⟩

/-- The flag marks exactly the inputs whose sign step wraps (R85). -/
theorem shiftOverflow_iff_wraps (sh : BitVec 5) (neg : Bool) (n : Word) :
    shiftOverflow sh neg n = true ↔
      neg = true ∧ (shiftQuotient sh neg n).toInt ≠ -(shiftMagnitudeQuotient sh.toNat n).toInt := by
  rw [shiftOverflow_iff]
  constructor
  · rintro ⟨rfl, rfl, rfl⟩
    decide
  · rintro ⟨rfl, hwraps⟩
    refine ⟨rfl, ?_⟩
    by_contra hpair
    exact hwraps (neg32_toInt _ (shiftMagnitudeQuotient_ne_intMin hpair))

/-- `DIV.S` of an idle block answers what U_SHIFT computes (R69). -/
theorem exec_divS {s : State} (hph : s.ph = .idle) (neg : Bool) (sh : BitVec 5) (n : Word) :
    exec (.divS neg sh n) s =
      .next (respond (quotientResponse (shiftQuotient sh neg n) (shiftOverflow sh neg n))
        (acceptWord (encode (.divS neg sh n)) s)) := by
  rw [exec, execDivS, whenIdle_idle hph, answerDivS]

/-- Settles O40: the negation wraps only of `INT_MIN`, which only the unshifted dividend can be. -/
theorem overflowFlagMarksTheWrappedQuotient : Obligations.OverflowFlagMarksTheWrappedQuotient := by
  intro sh neg n
  refine ⟨(shiftOverflow_iff sh neg n).trans and_left_comm, shiftOverflow_iff_wraps sh neg n, fun hovf => ?_⟩
  obtain ⟨rfl, rfl, rfl⟩ := (shiftOverflow_iff sh neg n).mp hovf
  exact ⟨by decide, by decide, fun s hph => ⟨_, exec_divS hph true 0#5 intMin, rfl, rfl, rfl⟩⟩

/-- Settles O41: the divisor is plus or minus the power, and the one wrapped quotient is `INT_MIN`, flagged. -/
theorem shiftStrategyDividesByThePower : Obligations.ShiftStrategyDividesByThePower := by
  intro sh neg n
  refine ⟨fun hpair => ?_, ?_⟩
  · rw [shiftQuotient_toInt hpair, ite_mul, neg_one_mul, one_mul]
  · rintro ⟨rfl, rfl, rfl⟩
    decide

/-! ### The answer of `DIV.S` -/

/-- Settles O36: U_SHIFT and its flag are lines 1 to 9 of the pseudocode, and the response is their word. -/
theorem divSRespondsWithTheShiftQuotient : Obligations.DivSRespondsWithTheShiftQuotient := by
  intro neg sh n s hph q0 q ovf
  have hq0 : shiftMagnitudeQuotient sh.toNat n = q0 := if_congr (BitVec.toNat_inj (y := 0#5)) rfl rfl
  have hq : shiftQuotient sh neg n = q := by rw [shiftQuotient, hq0]
  have hovf : shiftOverflow sh neg n = ovf := by
    rw [Bool.eq_iff_iff, shiftOverflow_iff, decide_eq_true_iff, and_left_comm]
  refine ⟨_, exec_divS hph neg sh n, ?_, rfl, rfl, rfl⟩
  rw [respond_port, hq, hovf]
  rfl

end Sys2Proof.Machine
end

section
/-! PROOFS. The statements about U_MAGIC (42_magic_derivation.md R92 to R103): the constant `anc`, the registers from
`start` through the iterations to the end of the loop, and the constants read off them. -/

namespace Sys2Proof.Machine

/-! ### The constant `anc` and the start (R92, R93) -/

/-- A magnitude that divides `2^31` would be a power of two (R92). -/
theorem two_pow_mod_ne_zero {ad : Nat} (h : inMagicDomain ad = true) : 2 ^ 31 % ad ≠ 0 := by
  obtain ⟨-, -, hpow⟩ := (inMagicDomain_iff ad).mp h
  intro h0
  obtain ⟨k, hk, hadk⟩ := (Nat.dvd_prime_pow Nat.prime_two).mp (Nat.dvd_of_mod_eq_zero h0)
  exact hpow k (by omega) hadk

/-- The quotient of `2^31` by `anc` is 1, or 2 for the least `anc` (R93). -/
theorem two_pow_div_ancOf {ad : Nat} (h : inMagicDomain ad = true) :
    (2 ^ 31 / ancOf ad = 1 ∨ 2 ^ 31 / ancOf ad = 2) ∧ (2 ^ 31 / ancOf ad = 2 → ancOf ad = 2 ^ 30) := by
  have hlow := two_pow_thirty_le_ancOf h
  obtain ⟨hpos, hhigh⟩ := ancOf_bounds h
  have h1 : 1 ≤ 2 ^ 31 / ancOf ad := (Nat.le_div_iff_mul_le hpos).mpr (by omega)
  have h2 : 2 ^ 31 / ancOf ad ≤ 2 := Nat.div_le_of_le_mul (by omega)
  refine ⟨by omega, fun hq => ?_⟩
  have hmul : 2 * ancOf ad ≤ 2 ^ 31 := (Nat.le_div_iff_mul_le hpos).mp hq.ge
  omega

/-- Settles O27: the remainder of `2^31` is at least 1 and leaves at least `2^30`. -/
theorem ancIsAlmostNc : Obligations.AncIsAlmostNc := by
  refine ⟨fun ad h => ?_, by decide, by decide, by decide, by decide⟩
  have hne := two_pow_mod_ne_zero h
  have hanc : ancOf ad = 2 ^ 31 - 1 - 2 ^ 31 % ad := rfl
  exact ⟨hanc, two_pow_thirty_le_ancOf h, by omega, hne⟩

/-- Settles O28: the registers satisfy the loop invariant with `P` = 31. -/
theorem derivationStartsAtTheQuotients : Obligations.DerivationStartsAtTheQuotients := by
  intro ad r h t
  have hs : DrvHolds ad.toNat t := drvStart_holds r h
  have hq1 : t.q1.toNat = 2 ^ 31 / ancOf ad.toNat := hs.q1Is
  obtain ⟨hq, hq2⟩ := two_pow_div_ancOf h
  refine ⟨hs.ancIs, hs.adIs, hq1, hs.r1Is, hs.q2Is, hs.r2Is, rfl, ?_, ?_⟩
  · rwa [hq1]
  · rwa [hq1]

/-! ### The `iterate` step (R94) -/

theorem dropTick_eq_ite (es : List HostEvent) :
    dropTick es = if es.head? = some .tick then es.tail else es := by
  rcases es with _ | ⟨e, rest⟩
  · rfl
  · cases e <;> rfl

/-- A busy block with a derivation that has not ended iterates, unless reset comes first (R14, R103). -/
theorem step_iterates {s : State} (hph : s.ph = .busy) (hrun : s.drv.run = true) (he : drvEnded s.drv = false)
    (hin : ∀ rest, s.inbox ≠ .reset :: rest) :
    step s = .next { s with drv := drvIterate s.drv, inbox := dropTick s.inbox } := by
  rcases step_cases s with
    ⟨rest, hreset, -⟩ | ⟨hnot, -⟩ | ⟨_, _, hidle, -⟩ | ⟨_, _, hidle, -⟩ | ⟨-, -, hstep⟩
  · exact absurd hreset (hin rest)
  · exact absurd hph hnot
  · cases hph.symm.trans hidle
  · cases hph.symm.trans hidle
  · rw [hstep, blockStep, if_pos (by simp [hrun, he])]

/-- Settles O29: under the invariant no register of the `iterate` wraps. -/
theorem iterateStepIsExact : Obligations.IterateStepIsExact := by
  intro s ad hph hrun he h hin
  obtain ⟨hpair1, hpair2⟩ := h.iterate_pairs he
  refine ⟨_, step_iterates hph hrun he hin, by rw [dropTick_eq_ite], hrun, rfl, rfl, h.iterate_p he, ?_, ?_, ?_⟩
  · rw [h.ancIs]
    exact hpair1
  · rw [h.adIs]
    exact hpair2
  · rw [h.adIs]
    exact h.iterate_delta he

/-! ### The loop (R95, R98, R99) -/

/-- From its start a derivation keeps the loop invariant and counts `P`, as long as it has not ended (R99). -/
theorem iterate_drvStart_holds {ad : Word} (r : Drv) (h : inMagicDomain ad.toNat = true) {k : Nat}
    (he : ∀ j < k, drvEnded (drvIterate^[j] (drvStart ad r)) = false) :
    DrvHolds ad.toNat (drvIterate^[k] (drvStart ad r)) ∧ (drvIterate^[k] (drvStart ad r)).p.toNat = 31 + k := by
  induction k with
  | zero => exact ⟨drvStart_holds r h, rfl⟩
  | succ k ih =>
    obtain ⟨hholds, hp⟩ := ih fun j hj => he j (by omega)
    have hek := he k (by omega)
    rw [Function.iterate_succ_apply']
    exact ⟨hholds.iterate hek, by rw [hholds.iterate_p hek, hp, Nat.add_assoc]⟩

/-- The register loop of a derivation answers at its first ended iteration, which is one of the first 31 (R98). -/
theorem drvLoop_drvStart {ad : Word} (r : Drv) (h : inMagicDomain ad.toNat = true) :
    ∃ k, 1 ≤ k ∧ k ≤ 31 ∧ drvLoop Config.maxIterations (drvStart ad r) = some (drvIterate^[k] (drvStart ad r)) ∧
      drvEnded (drvIterate^[k] (drvStart ad r)) = true ∧
      ∀ j < k, drvEnded (drvIterate^[j] (drvStart ad r)) = false := by
  obtain ⟨t, hl, -⟩ := drvLoop_computes_derive r h
  obtain ⟨k, hk1, hk31, rfl, hend, hbefore⟩ := drvLoop_eq_some hl
  refine ⟨k, hk1, hk31, hl, hend, fun j hj => ?_⟩
  rcases Nat.eq_zero_or_pos j with rfl | hpos
  · exact drvStart_not_ended ad r
  · exact hbefore j hpos hj

/-- After an iteration the loop has ended exactly when its condition is false (R103). -/
theorem drvEnded_eq_not_drvContinues {r : Drv} (hp : 32 ≤ r.p.toNat) : drvEnded r = !drvContinues r := by
  have hle : (32#6 : BitVec 6) ≤ r.p := hp
  rw [drvEnded, decide_eq_true hle, Bool.true_and]

/-- Settles O30: an iteration that continues has not ended, so the invariant reaches the next one. -/
theorem loopInvariantHolds : Obligations.LoopInvariantHolds := by
  intro ad r k h hcontinues
  have he : ∀ j < k, drvEnded (drvIterate^[j] (drvStart ad r)) = false := by
    intro j hj
    rcases Nat.eq_zero_or_pos j with rfl | hpos
    · exact drvStart_not_ended ad r
    · exact drvEnded_eq_false_iff.mpr (.inr (hcontinues j hpos hj))
  obtain ⟨hs, hp⟩ := iterate_drvStart_holds r h he
  have had : 0 < ad.toNat := by have := ((inMagicDomain_iff _).mp h).1; omega
  have hr1 := hs.r1Is.trans_lt (Nat.mod_lt _ (ancOf_bounds h).1)
  have hr2 := hs.r2Is.trans_lt (Nat.mod_lt _ had)
  refine ⟨hp, hs.q1Is, hs.r1Is, hs.q2Is, hs.r2Is, hr1, hr2, fun hk => ?_⟩
  have hdelta := hs.deltaIs (by omega)
  rw [← hs.r2Is] at hdelta
  exact ⟨hdelta, by omega, by omega⟩

/-- Settles O31: the comparison of quotients is the comparison of powers. -/
theorem loopConditionComparesPowers : Obligations.LoopConditionComparesPowers :=
  fun _ r h hp => ⟨drvContinues_iff r, h.continues_iff hp, drvEnded_eq_not_drvContinues hp⟩

/-- Settles O32: the iterations up to the first ended one, each counted in `P`. -/
theorem derivationEndsWithinThirtyOneIterations : Obligations.DerivationEndsWithinThirtyOneIterations := by
  intro ad r h
  obtain ⟨k, hk1, hk31, hl, hend, hbefore⟩ := drvLoop_drvStart r h
  exact ⟨k, hk1, hk31, hend, hbefore, hl, (iterate_drvStart_holds r h hbefore).2⟩

/-! ### The constants of `derive` (R90, R96, R101, R103) -/

/-- Settles O33: the loop computes `derive`, and its `P` is at most 62, so that `s` fits in `SH`. -/
theorem registerMachineComputesDerive : Obligations.RegisterMachineComputesDerive := by
  intro ad r h
  obtain ⟨t, hl, hderive⟩ := drvLoop_computes_derive r h
  obtain ⟨-, hs, -, -⟩ := derive_eq_some hderive
  refine ⟨t, hl, hderive, ?_⟩
  rw [drvShift, BitVec.toNat_ofNat, Nat.mod_eq_of_lt (by omega)]

/-- Settles O34: the multiplier is the quotient plus 1, and it is a word. -/
theorem derivedConstantsInClosedForm : Obligations.DerivedConstantsInClosedForm := by
  intro ad M s h
  obtain ⟨-, hs, hM, -⟩ := derive_eq_some h
  have hdm := Nat.div_add_mod' (2 ^ (s + 32)) ad
  refine ⟨hs, hM ▸ M.isLt, hM, ?_⟩
  rw [hM, Nat.add_mul, Nat.one_mul]
  omega

theorem derive_isSome_iff (ad : Nat) : (derive ad).isSome = true ↔ inMagicDomain ad = true := by
  rw [Option.isSome_iff_exists]
  constructor
  · rintro ⟨_, h⟩
    exact inMagicDomain_of_derive h
  · intro h
    obtain ⟨-, h31, -⟩ := (inMagicDomain_iff ad).mp h
    have hword : (BitVec.ofNat 32 ad).toNat = ad := Nat.mod_eq_of_lt (by omega)
    rw [← hword] at h ⊢
    obtain ⟨_, -, hderive⟩ := drvLoop_computes_derive Drv.reset h
    exact ⟨_, hderive⟩

/-- The domain excludes every power of two: one that is below `2^31` has its exponent below 32 (R101). -/
theorem inMagicDomain_iff_not_two_pow (ad : Nat) :
    inMagicDomain ad = true ↔ 3 ≤ ad ∧ ad ≤ 2 ^ 31 - 1 ∧ ¬∃ k, ad = 2 ^ k := by
  rw [inMagicDomain_iff]
  refine and_congr_right fun _ => and_congr_right fun h31 => ⟨?_, fun h k _ hk => h ⟨k, hk⟩⟩
  rintro h ⟨k, rfl⟩
  have hlt : 2 ^ k < 2 ^ 32 := by omega
  exact h k ((Nat.pow_lt_pow_iff_right Nat.one_lt_two).mp hlt) rfl

/-- Settles O35: the domain of `derive`, and the classification that passes it nothing else. -/
theorem deriveIsNeverGivenAnOutsideMagnitude : Obligations.DeriveIsNeverGivenAnOutsideMagnitude :=
  ⟨fun ad => (derive_isSome_iff ad).symm, inMagicDomain_iff_not_two_pow, fun _ _ _ => inMagicDomain_of_classify⟩

end Sys2Proof.Machine
end

section
/-! PROOFS. The statements about U_GEN and `DIV.M` (43_general_strategy.md R110 to R117; 40_dispatcher.md R70). -/

namespace Sys2Proof.Machine

/-! ### The derived constants -/

/-- Settles O47: the floor of the product, less the sign term, is the truncated quotient by the magnitude, and the sign
of the divisor carries over. -/
theorem derivedConstantsDivide : Obligations.DerivedConstantsDivide :=
  fun _ _ _ neg n h => generalQuotient_of_derive h neg n

/-! ### The widening multiply and its correction -/

/-- A product of two 32-bit values is a 64-bit value (R111). -/
theorem mul64s_toInt (a b : Word) : (mul64s a b).toInt = a.toInt * b.toInt := by
  have hlo := BitVec.le_toInt_mul_toInt (x := a) (y := b)
  have hhi := BitVec.toInt_mul_toInt_le (x := a) (y := b)
  apply BitVec.toInt_ofInt_eq_self (by decide) <;> omega

/-- Settles O43: the 64 bits hold the product, and the high half floors it. -/
theorem multiplyHighIsTheFloor : Obligations.MultiplyHighIsTheFloor :=
  fun mc n => ⟨mul64s_toInt mc n, rfl, mulhs32_toInt mc n⟩

theorem generalHigh_of_msb {mc : Word} (h : mc.getLsbD 31 = true) (n : Word) :
    generalHigh mc n = add32 (mulhs32 mc n) n := if_pos h

theorem generalHigh_of_not_msb {mc : Word} (h : mc.getLsbD 31 = false) (n : Word) :
    generalHigh mc n = mulhs32 mc n := if_neg (Bool.eq_false_iff.mp h)

/-- The correction adds the dividend exactly: `2^32` more in the multiplier is one dividend more in the floor (R112). -/
theorem generalHigh_toInt_eq_add (mc n : Word) :
    (generalHigh mc n).toInt = (mulhs32 mc n).toInt + (if mc.getLsbD 31 then n.toInt else 0) := by
  cases hb : mc.getLsbD 31 with
  | true =>
    have hread := toInt_eq_toNat_sub mc
    rw [hb, if_pos rfl, eq_sub_iff_add_eq] at hread
    rw [generalHigh_toInt, mulhs32_toInt, ← hread, if_pos rfl, mul_add, mul_comm n.toInt mc.toInt,
      Int.add_mul_ediv_right _ _ (by norm_num)]
  | false => rw [generalHigh_of_not_msb hb, if_neg Bool.false_ne_true, add_zero]

/-- Settles O44: the correction never wraps, and with it the floor is that of the product by the unsigned multiplier. -/
theorem correctionReadsTheMultiplierUnsigned : Obligations.CorrectionReadsTheMultiplierUnsigned := by
  intro mc n
  refine ⟨fun hb => ⟨generalHigh_of_msb hb n, ?_⟩, fun hb => generalHigh_of_not_msb hb n, generalHigh_toInt mc n⟩
  rw [generalHigh_toInt_eq_add, if_pos hb]

/-! ### The post-shift and the sign term -/

theorem signTerm_of_nonneg {n : Word} (hn : 0 ≤ n.toInt) : signTerm n = 0#32 := by
  have hsign := signTerm_toInt n
  rw [if_neg (not_lt.mpr hn)] at hsign
  exact BitVec.eq_of_toInt_eq hsign

theorem signTerm_of_neg {n : Word} (hn : n.toInt < 0) : signTerm n = 0xFFFFFFFF#32 := by
  have hsign := signTerm_toInt n
  rw [if_pos hn] at hsign
  exact BitVec.eq_of_toInt_eq hsign

/-- Settles O45: two floors by powers are one, and the sign term is the sign bit in every place. -/
theorem postShiftFloorsTheWholeProduct : Obligations.PostShiftFloorsTheWholeProduct := by
  intro mc n sc
  refine ⟨rfl, ?_, rfl, signTerm_of_nonneg, signTerm_of_neg⟩
  rw [generalShifted_toInt, Nat.add_comm]

/-! ### The final combine -/

/-- The shifted value has the dividend's sign or is 0 (R116). -/
theorem generalShifted_sign (mc n : Word) (sc : Nat) :
    (n.toInt < 0 → (generalShifted mc sc n).toInt ≤ 0) ∧ (0 ≤ n.toInt → 0 ≤ (generalShifted mc sc n).toInt) := by
  have hpos : (0 : Int) < 2 ^ (sc + 32) := by positivity
  have hmc := Int.natCast_nonneg mc.toNat
  rw [generalShifted_toInt]
  exact ⟨fun hn => Int.ediv_nonpos_of_nonpos_of_neg (mul_nonpos_of_nonpos_of_nonneg hn.le hmc) hpos,
    fun hn => Int.ediv_nonneg (mul_nonneg hn hmc) hpos.le⟩

/-- Only a value that is not positive has the sign term's 1 added to it, so the difference leaves `INT_MIN` out (R116). -/
theorem generalShifted_sub_signTerm_bounds (mc n : Word) (sc : Nat) :
    -2 ^ 31 + 1 ≤ (generalShifted mc sc n).toInt - (signTerm n).toInt ∧
      (generalShifted mc sc n).toInt - (signTerm n).toInt ≤ 2 ^ 31 - 1 := by
  obtain ⟨hneg, hnonneg⟩ := generalShifted_sign mc n sc
  obtain ⟨hlo, hhi⟩ := word_bounds (generalShifted mc sc n)
  have hsign := signTerm_toInt n
  split at hsign <;> omega

/-- The final combine is one exact subtraction, in the order the sign of the divisor asks for (R115). -/
theorem generalQuotient_toInt_eq_sub (mc : Word) (sc : BitVec 5) (neg : Bool) (n : Word) :
    (generalQuotient mc sc neg n).toInt =
      if neg then (signTerm n).toInt - (generalShifted mc sc.toNat n).toInt
      else (generalShifted mc sc.toNat n).toInt - (signTerm n).toInt := by
  rw [generalQuotient_toInt mc sc neg n rfl, neg_sub, generalShifted_toInt, signTerm_toInt]

/-- Settles O46: the shifted value and the sign term lie on the same side of 0, so no subtraction of them wraps. -/
theorem generalCombineNeverWraps : Obligations.GeneralCombineNeverWraps := by
  intro mc n sc neg r2 o
  obtain ⟨hnonpos, hnonneg⟩ := generalShifted_sign mc n sc.toNat
  obtain ⟨hlo, hhi⟩ := generalShifted_sub_signTerm_bounds mc n sc.toNat
  have hexact := generalQuotient_toInt_eq_sub mc sc neg n
  refine ⟨generalHigh_toInt_eq_add mc n, hnonpos, hnonneg, hlo, hhi, ?_, ?_⟩
  · rintro rfl
    exact ⟨rfl, hexact⟩
  · rintro rfl
    exact ⟨rfl, hexact⟩

/-! ### The answer of `DIV.M` -/

/-- `DIV.M` of an idle block answers what U_GEN computes (R70). -/
theorem exec_divM {s : State} (hph : s.ph = .idle) (neg : Bool) (sh : BitVec 5) (mc n : Word) :
    exec (.divM neg sh mc n) s =
      .next (respond (quotientResponse (generalQuotient mc sh neg n) false)
        (acceptWord (encode (.divM neg sh mc n)) s)) := by
  rw [exec, execDivM, whenIdle_idle hph, answerDivM]

/-- Settles O42: U_GEN is the pseudocode line by line, and the response is its quotient behind a status of 0. -/
theorem divMRespondsWithTheGeneralQuotient : Obligations.DivMRespondsWithTheGeneralQuotient := by
  intro neg sh mc n s hph prod hi r1 r2 o q
  have hq : generalQuotient mc sh neg n = q := rfl
  refine ⟨_, exec_divM hph neg sh mc n, ?_, rfl, rfl, rfl⟩
  rw [respond_port, hq]
  rfl

end Sys2Proof.Machine
end

section
/-! PROOFS. The faults (60_exceptions.md): which words take which (R120), what fault entry does (R126), and that nothing
but reset changes a halted block (R128; 70_reset_and_hazards.md R144). -/

namespace Sys2Proof.Machine

/-! ### The halted block (R126, R128) -/

/-- A step of a halted block that is not a reset uses up the next event and changes nothing else. -/
theorem step_halt {s : State} (hph : s.ph = .halt) (hreset : HostEvent.reset ∉ s.inbox) :
    step s = .next { s with inbox := s.inbox.tail } := by
  rcases step_cases s with
    ⟨rest, hin, -⟩ | ⟨-, -, h⟩ | ⟨c, rest, hidle, -⟩ | ⟨c, rest, hidle, -⟩ | ⟨hbusy, -⟩
  · exact absurd (hin ▸ List.mem_cons_self) hreset
  · exact h
  · cases hph.symm.trans hidle
  · cases hph.symm.trans hidle
  · cases hph.symm.trans hbusy

/-- Settles O3: of the things a step can do, the others leave a halted block halted or are not done by one. -/
theorem onlyResetLeavesHalt : Obligations.OnlyResetLeavesHalt := by
  intro s t hph hstep hleft
  cases stepsTo_of_step hstep with
  | reset hin => exact ⟨_, hin⟩
  | wait => exact absurd hph hleft
  | accept hidle | runResponds hidle | runFaults hidle => cases hph.symm.trans hidle
  | iterate hbusy | busyResponds hbusy | busyFaults hbusy => cases hph.symm.trans hbusy

/-- Settles O4, by induction on the number of steps: each uses up one event. -/
theorem haltedBlockIsUnchangedUntilReset : Obligations.HaltedBlockIsUnchangedUntilReset := by
  intro k
  induction k with
  | zero => exact fun s _ _ => rfl
  | succ k ih =>
    intro s hph hreset
    have hrest : HostEvent.reset ∉ s.inbox.tail := fun hmem => hreset (List.mem_of_mem_tail hmem)
    rw [runSteps_succ (step_halt hph hreset), ih { s with inbox := s.inbox.tail } hph hrest, List.drop_tail]

/-! ### Which words take which fault (R120) -/

/-- The fault of a word, read off its fields along the lines of the decoder (30_encoding.md R50). -/
theorem commandFault_eq (c : CmdWord) :
    commandFault c =
      if (commandFields c).opc = opcMkdiv then
        if (commandFields c).desc ≠ Descriptor.zero then some .illegalCmd
        else if (commandFields c).operand = 0#32 then some .divisorZero else none
      else if (commandFields c).opc = opcDiv then
        if (commandFields c).desc.tag = tagShift then
          if (commandFields c).desc.mc ≠ 0#32 then some .badDesc else none
        else if (commandFields c).desc.tag = tagMagic then none
        else some .badDesc
      else some .illegalCmd := by
  split_ifs with hmk hres hzero hdiv hS hmc hM
  · exact commandFault_error (decodeFields_mkdivReservedBits hmk hres)
  · exact (commandFault_mkdiv (decodeFields_mkdiv hmk (not_not.mp hres))).trans (if_pos hzero)
  · exact (commandFault_mkdiv (decodeFields_mkdiv hmk (not_not.mp hres))).trans (if_neg hzero)
  · exact commandFault_error (decodeFields_shiftMultiplier hdiv hS hmc)
  · exact commandFault_divS (decodeFields_divS hdiv hS (not_not.mp hmc))
  · exact commandFault_divM (decodeFields_divM hdiv hM)
  · exact commandFault_error (decodeFields_reservedTag hdiv hS hM)
  · exact commandFault_error (decodeFields_unknownOpcode ⟨hmk, hdiv⟩)

section
variable {c : CmdWord}

theorem commandFault_eq_divisorZero_iff :
    commandFault c = some .divisorZero ↔
      c.extractLsb' 72 8 = 0x01#8 ∧ c.extractLsb' 32 40 = 0#40 ∧ c.extractLsb' 0 32 = 0#32 := by
  rw [commandFault_eq, ← commandFields_opc, ← commandFields_operand, ← commandFields_desc_eq_zero_iff]
  split_ifs <;> simp_all

theorem commandFault_eq_illegalCmd_iff :
    commandFault c = some .illegalCmd ↔
      (c.extractLsb' 72 8 ≠ 0x01#8 ∧ c.extractLsb' 72 8 ≠ 0x02#8) ∨
      (c.extractLsb' 72 8 = 0x01#8 ∧ c.extractLsb' 32 40 ≠ 0#40) := by
  rw [commandFault_eq, ← commandFields_opc, ne_eq (c.extractLsb' 32 40), ← commandFields_desc_eq_zero_iff]
  split_ifs <;> simp_all

theorem commandFault_eq_badDesc_iff :
    commandFault c = some .badDesc ↔
      c.extractLsb' 72 8 = 0x02#8 ∧ (c.extractLsb' 70 2 = 0b00#2 ∨ c.extractLsb' 70 2 = 0b11#2 ∨
        (c.extractLsb' 70 2 = 0b01#2 ∧ c.extractLsb' 32 32 ≠ 0#32)) := by
  rw [commandFault_eq, ← commandFields_opc, ← or_assoc, reservedTag_iff, ← commandFields_tag, ← commandFields_mc]
  have hopc : opcMkdiv ≠ opcDiv := by decide
  split_ifs <;> simp_all

theorem commandFC_eq_faultCode_iff {f : FaultCause} : commandFC c = faultCode f ↔ commandFault c = some f := by
  cases hf : commandFault c with
  | none => simp [commandFC_of_no_fault hf, (faultCode_ne_zero f).symm]
  | some g =>
    rw [commandFC_of_fault hf, Option.some.injEq]
    exact ⟨faultCode_injective, congrArg faultCode⟩

end

theorem commandFC_le_three (c : CmdWord) : (commandFC c).toNat ≤ 3 := by
  cases hf : commandFault c with
  | none => simp [commandFC_of_no_fault hf]
  | some f => exact commandFC_of_fault hf ▸ faultCode_le_three f

/-! ### Fault entry (R126) -/

/-- The `respond` of a faulting word is the fault entry of its cause. -/
theorem respondStep_of_fault {s : State} {f : FaultCause} (hf : commandFault s.cmdr = some f) :
    respondStep s = .next (raiseFault f s) := by
  unfold respondStep
  cases hdec : decode s.cmdr with
  | error e =>
    cases hf.symm.trans (commandFault_error hdec)
    rfl
  | ok i =>
    cases i with
    | divS neg sh n => cases hf.symm.trans (commandFault_divS hdec)
    | divM neg sh mc n => cases hf.symm.trans (commandFault_divM hdec)
    | mkdiv d =>
      rw [commandFault_mkdiv hdec] at hf
      split at hf
      · next hd =>
        cases hf
        rw [hd]
        rfl
      · cases hf

/-- With no derivation running, the block's own step is that `respond`. -/
theorem blockStep_of_fault {s : State} {f : FaultCause} (hrun : s.drv.run = false)
    (hf : commandFault s.cmdr = some f) : blockStep s = .next (raiseFault f s) := by
  rcases blockStep_cases s with ⟨hrun', -, -⟩ | ⟨-, hblock⟩
  · cases hrun.symm.trans hrun'
  · exact hblock.trans (respondStep_of_fault hf)

theorem runWord_of_fault {s : State} {c : CmdWord} {f : FaultCause} (hph : s.ph = .idle)
    (hf : commandFault c = some f) : runWord c s = .next (raiseFault f (acceptWord c s)) := by
  rcases runWord_isAnswerTo c hph with ⟨g, hg, -, hrun⟩ | ⟨r, d, hnone, -, -⟩
  · cases hf.symm.trans hg
    exact hrun
  · cases hf.symm.trans hnone

/-- The response to a fault is its code over zeros (R120). -/
theorem faultResponse_eq_code_append_zero (fc : BitVec 4) : faultResponse fc = fc ++ 0#44 := by
  revert fc
  decide

/-- The same field by field: the code, `0000`, 40 zero bits (R126). -/
theorem faultResponse_eq_append (fc : BitVec 4) : faultResponse fc = fc ++ 0#4 ++ 0#40 := by
  revert fc
  decide

/-- A whole command leaves the code of its fault in `FSR` if that was 0; the block is halted exactly if there is one, the
working registers but `RUN` unchanged then and the code answered (R120, R126). -/
theorem runWord_records_commandFC (c : CmdWord) {s : State} (hph : s.ph = .idle) (hfsr : s.fsr = 0#4) :
    ∃ t, runWord c s = .next t ∧ t.cmdr = c ∧ t.fsr = commandFC c ∧ (t.ph = .halt ↔ t.fsr ≠ 0#4) ∧
      (t.fsr ≠ 0#4 → t.drv = { s.drv with run := false } ∧ t.port = some (t.fsr ++ 0#44)) := by
  rcases runWord_isAnswerTo c hph with ⟨f, hf, -, hrun⟩ | ⟨r, d, hnone, -, hrun⟩
  · refine ⟨_, hrun, rfl, (commandFC_of_fault hf).symm, by simp [faultCode_ne_zero], fun _ => ⟨rfl, ?_⟩⟩
    rw [raiseFault_port, raiseFault_fsr, faultResponse_eq_code_append_zero]
  · exact ⟨_, hrun, rfl, by simp [hfsr, commandFC_of_no_fault hnone], by simp [hfsr], fun hne => absurd hfsr hne⟩

/-- Settles O19: `FSR` holds the code of the word's fault, and each fault is read off the fields of the word. -/
theorem faultsAreRaisedExactlyAsTabled : Obligations.FaultsAreRaisedExactlyAsTabled := by
  intro s c rest hph hfsr hin opc tag
  obtain ⟨t, hrun, hcmdr, hfc, hhalt, hfault⟩ := runWord_records_commandFC c (s := { s with inbox := rest }) hph hfsr
  refine ⟨t, (step_run hph hin).trans hrun, hcmdr, hhalt, ?_, ?_, ?_, ?_, hfault⟩ <;> rw [hfc]
  · exact commandFC_eq_faultCode_iff (f := .divisorZero) |>.trans commandFault_eq_divisorZero_iff
  · exact commandFC_eq_faultCode_iff (f := .illegalCmd) |>.trans commandFault_eq_illegalCmd_iff
  · exact commandFC_eq_faultCode_iff (f := .badDesc) |>.trans commandFault_eq_badDesc_iff
  · exact commandFC_le_three c

/-- Settles O20: in one step and as the small step `respond`, a faulting word is answered by its fault entry; a halted
block only uses up events. -/
theorem faultEntryHaltsWithTheCause : Obligations.FaultEntryHaltsWithTheCause := by
  refine ⟨fun s c rest f hph hin hf => ?_, fun s f _ hrun hf => ?_, fun s hph hreset => ⟨_, step_halt hph hreset, rfl⟩⟩
  · have hstep := (step_run hph hin).trans (runWord_of_fault (s := { s with inbox := rest }) hph hf)
    exact ⟨_, hstep, rfl, congrArg some (faultResponse_eq_append _), rfl, rfl⟩
  · have hdrv : { s.drv with run := false } = s.drv := by rw [← hrun]
    exact ⟨_, blockStep_of_fault hrun hf, rfl, congrArg some (faultResponse_eq_append _), hdrv, rfl⟩

end Sys2Proof.Machine
end

section
/-! PROOFS. Reset and the hazards (70_reset_and_hazards.md R140 to R149): what a reset leaves, that a busy block looks at
no offer, that its command is answered after a bounded number of steps, and that safe hosts keep it in service. -/

namespace Sys2Proof.Machine

/-! ### A block that is not idle takes no command (R144) -/

theorem whenIdle_of_ne_idle {s : State} (h : s.ph ≠ .idle) (k : State → Host.Outcome State Fault Refusal) :
    whenIdle s k = .next s := by
  cases hph : s.ph with
  | idle => exact absurd hph h
  | busy => exact whenIdle_busy hph k
  | halt => exact whenIdle_halt hph k

/-- Settles O7: every instruction is guarded by `whenIdle`. -/
theorem commandIsTurnedAwayUnlessIdle : Obligations.CommandIsTurnedAwayUnlessIdle := by
  intro i s h
  cases i with
  | mkdiv d => rw [exec, execMkdiv, whenIdle_of_ne_idle h]
  | divS neg sh n => rw [exec, execDivS, whenIdle_of_ne_idle h]
  | divM neg sh mc n => rw [exec, execDivM, whenIdle_of_ne_idle h]

/-- A step of a busy block that is not a reset is the block's own, the head of the inbox being used up if it is a
`tick`. -/
theorem step_busy_eq_blockStep {s : State} (hph : s.ph = .busy) (hin : s.inbox.head? ≠ some .reset) :
    step s = blockStep { s with inbox := dropTick s.inbox } := by
  rcases step_cases s with
    ⟨rest, hreset, -⟩ | ⟨hnot, -⟩ | ⟨_, _, hidle, -⟩ | ⟨_, _, hidle, -⟩ | ⟨-, -, hstep⟩
  · exact absurd (by rw [hreset, List.head?_cons]) hin
  · exact absurd hph hnot
  · cases hph.symm.trans hidle
  · cases hph.symm.trans hidle
  · exact hstep

section
variable {s t : State}

theorem answerMkdiv_frame_inbox {d : Word} (h : answerMkdiv d s = .next t) (es : List HostEvent) :
    t.inbox = s.inbox ∧ answerMkdiv d { s with inbox := es } = .next { t with inbox := es } := by
  rcases answerMkdiv_cases d s with ⟨hc, h'⟩ | ⟨_, _, hc, h'⟩ | ⟨_, _, hc, hrun, h'⟩ | ⟨_, _, -, -, h'⟩ <;>
    cases h.symm.trans h'
  · exact ⟨rfl, by simp only [answerMkdiv, hc]; rfl⟩
  · exact ⟨rfl, by simp only [answerMkdiv, hc]; rfl⟩
  · exact ⟨rfl, by simp only [answerMkdiv, hc, hrun, if_true]; rfl⟩

/-- The small step `respond` neither reads nor writes the inbox. -/
theorem respondStep_frame_inbox (h : respondStep s = .next t) (es : List HostEvent) :
    t.inbox = s.inbox ∧ respondStep { s with inbox := es } = .next { t with inbox := es } := by
  unfold respondStep at h ⊢
  cases hdec : decode s.cmdr with
  | error e =>
    rw [hdec] at h
    cases h
    exact ⟨rfl, rfl⟩
  | ok i =>
    rw [hdec] at h
    cases i with
    | mkdiv d => exact answerMkdiv_frame_inbox h es
    | divS neg sh n =>
      cases h
      exact ⟨rfl, rfl⟩
    | divM neg sh mc n =>
      cases h
      exact ⟨rfl, rfl⟩

/-- The block's own step neither reads nor writes the inbox. -/
theorem blockStep_frame_inbox (h : blockStep s = .next t) (es : List HostEvent) :
    t.inbox = s.inbox ∧ blockStep { s with inbox := es } = .next { t with inbox := es } := by
  unfold blockStep at h ⊢
  dsimp only
  split at h
  next hiter =>
    cases h
    exact ⟨rfl, by rw [if_pos hiter]⟩
  next hiter =>
    rw [if_neg hiter]
    exact respondStep_frame_inbox h es

end

/-- Settles O8: the step is the block's own, and that one does not touch the inbox. -/
theorem busyBlockDoesNotLookAtTheOffer : Obligations.BusyBlockDoesNotLookAtTheOffer := by
  intro s t c c' rest hph hstep
  have hblock := (step_busy_eq_blockStep (s := { s with inbox := .offer c :: rest }) hph (by simp)).symm.trans hstep
  obtain ⟨hwaits, hoffer⟩ := blockStep_frame_inbox hblock (.offer c' :: rest)
  obtain ⟨-, hrun⟩ := blockStep_frame_inbox hblock (.run c' :: rest)
  exact ⟨hwaits, (step_busy_eq_blockStep (s := { s with inbox := .offer c' :: rest }) hph (by simp)).trans hoffer,
    (step_busy_eq_blockStep (s := { s with inbox := .run c' :: rest }) hph (by simp)).trans hrun⟩

/-! ### Reset (R140, R141) -/

theorem step_reset {s : State} {rest : List HostEvent} (hin : s.inbox = .reset :: rest) :
    step s = .next (hostReset { s with inbox := rest }) := by
  simp only [step, stepEvent, hin]

/-- Settles O2: the fields of the state a reset leaves. -/
theorem resetStepClearsEveryState : Obligations.ResetStepClearsEveryState :=
  fun _ _ hin => ⟨_, step_reset hin, rfl, rfl, rfl, rfl, rfl, rfl⟩

/-- Settles O10: the reset block is idle with the same history of responses, and answers the next word by that word
alone. -/
theorem resetAbandonsTheCommandInProgress : Obligations.ResetAbandonsTheCommandInProgress := by
  intro s c _ hin
  obtain ⟨t, r, hrun, hresp, hport, hsent, -⟩ :=
    responseIsAFunctionOfTheCommand (hostReset { s with inbox := [] }) c rfl
  have hsteps : runSteps 2 s = runWord c (hostReset { s with inbox := [] }) :=
    (runSteps_succ (step_reset hin)).trans ((runSteps_one _).trans (step_run rfl rfl))
  exact ⟨t, r, hsteps.trans hrun, hresp, hsent, hport⟩

/-! ### The `respond` of a derivation that has ended (R96, R103) -/

section
variable {ad : Nat} {r r' : Drv}

/-- A derivation that has ended has gone at least as far as any other of the same magnitude: each continued while the
loop condition held. -/
theorem DrvHolds.p_le_of_ended (h : DrvHolds ad r) (he : drvEnded r = true) (h' : DrvHolds ad r') :
    r'.p.toNat ≤ r.p.toNat := by
  obtain ⟨hp, hlt⟩ := h.lt_pow_of_ended he
  by_contra hfurther
  exact hlt.not_ge (h'.continuedBefore _ hp (by omega))

/-- The registers of an ended derivation hold the constants of `derive`, whichever steps led there. -/
theorem DrvHolds.derive_eq {ad : Word} (h : DrvHolds ad.toNat r) (he : drvEnded r = true) :
    derive ad.toNat = some (drvMultiplier r, r.p.toNat - 32) := by
  obtain ⟨t, hl, hderive⟩ := drvLoop_computes_derive r h.domain
  obtain ⟨ht, hend⟩ := (drvStart_holds r h.domain).of_drvLoop (drvStart_not_ended _ _) hl
  have hp : r.p.toNat = t.p.toNat := Nat.le_antisymm (ht.p_le_of_ended hend h) (h.p_le_of_ended he ht)
  have hq2 : r.q2 = t.q2 := BitVec.eq_of_toNat_eq (by rw [h.q2Is, ht.q2Is, hp])
  rw [hderive, drvMultiplier, drvMultiplier, hp, hq2]

end

/-- The small step `respond` is the answer its word calls for, if the working registers hold the constants of a general
`MKDIV`. -/
theorem respondStep_isAnswerTo {s : State}
    (hgeneral : ∀ neg ad, generalCommand s.cmdr = some (neg, ad) →
      s.drv.run = true ∧ derive ad.toNat = some (drvMultiplier s.drv, s.drv.p.toNat - 32)) :
    IsAnswerTo s.cmdr s (respondStep s) := by
  unfold respondStep
  cases hdec : decode s.cmdr with
  | error e => exact .inl ⟨_, commandFault_error hdec, responseTo_error hdec, rfl⟩
  | ok i =>
    cases i with
    | divS neg sh n => exact .inr ⟨_, s.drv, commandFault_divS hdec, responseTo_divS hdec, rfl⟩
    | divM neg sh mc n => exact .inr ⟨_, s.drv, commandFault_divM hdec, responseTo_divM hdec, rfl⟩
    | mkdiv d =>
      by_cases hc : ∃ neg ad, classify d = .general neg ad
      · obtain ⟨neg, ad, hc⟩ := hc
        obtain ⟨hrun, hderive⟩ := hgeneral neg ad (generalCommand_eq_some_iff.mpr ⟨d, hdec, hc⟩)
        have hfault := (commandFault_mkdiv hdec).trans (if_neg (classify_eq_general hc).1)
        exact .inr ⟨_, s.drv, hfault, responseTo_mkdiv_general hdec hc hderive, answerDerived_general hc hrun s⟩
      · have hanswer := runMkdiv_isAnswerTo hdec s
        rwa [runMkdiv_not_general fun neg ad h => hc ⟨neg, ad, h⟩] at hanswer

/-! ### One step of a busy block under the invariant -/

section
variable {s : State} {c : CmdWord} {o : Host.Outcome State Fault Refusal}

/-- An answer sends exactly the response of its word and ends the command. -/
theorem IsAnswerTo.sends (h : IsAnswerTo c s o) :
    ∃ t r, o = .next t ∧ t.ph ≠ .busy ∧ t.sent = s.sent ++ [r] ∧ responseTo c = some r := by
  rcases h with ⟨f, -, hr, rfl⟩ | ⟨r, d, -, hr, rfl⟩
  · exact ⟨_, _, rfl, by simp, rfl, hr⟩
  · exact ⟨_, _, rfl, by simp, rfl, hr⟩

/-- The answer to a word that does not fault leaves the block idle. -/
theorem IsAnswerTo.idle_of_no_fault {t : State} (h : IsAnswerTo c s (.next t)) (hc : commandFault c = none) :
    t.ph = .idle ∧ t.inbox = s.inbox := by
  rcases h with ⟨f, hf, -, -⟩ | ⟨r, d, -, -, ht⟩
  · cases hc.symm.trans hf
  · cases ht
    exact ⟨rfl, rfl⟩

/-- Under the invariant a running derivation holds the loop invariant of some magnitude. -/
theorem State.Inv.drvHolds (h : s.Inv) (hrun : s.drv.run = true) : ∃ ad, DrvHolds ad s.drv := by
  obtain ⟨⟨neg, ad⟩, hg⟩ := Option.isSome_iff_exists.mp ((h.runIffGeneral (h.runBusy hrun)).mp hrun)
  exact ⟨ad.toNat, h.derivation hrun neg ad hg⟩

/-- Under the invariant a busy block that is not reset iterates, or answers its command. -/
theorem State.Inv.step_busy_cases (h : s.Inv) (hph : s.ph = .busy) (hin : s.inbox.head? ≠ some .reset) :
    (s.drv.run = true ∧ drvEnded s.drv = false ∧
      step s = .next { s with inbox := dropTick s.inbox, drv := drvIterate s.drv }) ∨
    IsAnswerTo s.cmdr { s with inbox := dropTick s.inbox } (step s) := by
  rw [step_busy_eq_blockStep hph hin]
  rcases blockStep_cases { s with inbox := dropTick s.inbox } with ⟨hrun, he, hblock⟩ | ⟨hended, hblock⟩
  · exact .inl ⟨hrun, he, hblock⟩
  · rw [hblock]
    refine .inr (respondStep_isAnswerTo (s := { s with inbox := dropTick s.inbox }) fun neg ad hg => ?_)
    have hrun : s.drv.run = true := (h.runIffGeneral hph).mpr (Option.isSome_of_eq_some hg)
    exact ⟨hrun, (h.derivation hrun neg ad hg).derive_eq (hended hrun)⟩

end

/-! ### Safe hosts (R149) -/

theorem safeEvents_of_subset {es es' : List HostEvent} (h : safeEvents es = true) (hsub : es' ⊆ es) :
    safeEvents es' = true :=
  List.all_eq_true.mpr fun e he => List.all_eq_true.mp h e (hsub he)

theorem safeEvents_cons_run {c : CmdWord} {es : List HostEvent} :
    safeEvents (.run c :: es) = true ↔ commandFault c = none ∧ safeEvents es = true := by simp [safeEvents]

theorem safeEvents_cons_offer {c : CmdWord} {es : List HostEvent} :
    safeEvents (.offer c :: es) = true ↔ commandFault c = none ∧ safeEvents es = true := by simp [safeEvents]

theorem dropTick_subset (es : List HostEvent) : dropTick es ⊆ es := by
  rw [dropTick_eq_ite]
  split
  · exact List.tail_subset es
  · exact List.Subset.refl es

/-- An idle block in service is safe as long as its hosts are. -/
theorem State.Safe.of_idle {t : State} (hinv : t.Inv) (hph : t.ph = .idle) (hsafe : safeEvents t.inbox = true) :
    t.Safe where
  inv := hinv
  inService := by simp [hph]
  commandOk hbusy := by cases hph.symm.trans hbusy
  eventsOk := hsafe

/-- Settles O57: no command a step can serve faults, so each is answered by a response, which leaves the block idle. -/
theorem safeHostsNeverHaltTheBlock : Obligations.SafeHostsNeverHaltTheBlock := by
  intro s t ⟨hinv, hserv, hcmd, hev⟩ hstep
  have ht : t.Inv := everyStepKeepsTheInvariant s t hinv hstep
  have hsub {es : List HostEvent} (h : es ⊆ s.inbox) : safeEvents es = true := safeEvents_of_subset hev h
  rcases step_cases s with
    ⟨rest, hin, h⟩ | ⟨hph, -, h⟩ | ⟨c, rest, hph, hin, h⟩ | ⟨c, rest, hph, hin, h⟩ | ⟨hph, hin, -⟩
  · cases hstep.symm.trans h
    exact .of_idle ht rfl (hsub (by simp [hin]))
  · cases hstep.symm.trans h
    exact ⟨ht, hserv, hcmd, hsub (List.tail_subset _)⟩
  · obtain ⟨hc, hrest⟩ := safeEvents_cons_run.mp (hin ▸ hev)
    have hans := runWord_isAnswerTo c (s := { s with inbox := rest }) hph
    rw [h.symm.trans hstep] at hans
    obtain ⟨htph, htin⟩ := hans.idle_of_no_fault hc
    exact .of_idle ht htph (htin ▸ hrest)
  · obtain ⟨hc, hrest⟩ := safeEvents_cons_offer.mp (hin ▸ hev)
    cases hstep.symm.trans h
    exact ⟨ht, by simp, fun _ => hc, hrest⟩
  · rcases hinv.step_busy_cases hph hin with ⟨-, -, h⟩ | hans
    · cases hstep.symm.trans h
      exact ⟨ht, hserv, hcmd, hsub (dropTick_subset _)⟩
    · rw [hstep] at hans
      obtain ⟨htph, htin⟩ := hans.idle_of_no_fault (hcmd hph)
      exact .of_idle ht htph (htin ▸ hsub (dropTick_subset _))

/-! ### The command in progress (R148) -/

/-- From `s` the command in `CMDR` is answered by the step after the next `k`: until then the block is busy and has sent
nothing. -/
def AnsweredAfter (k : Nat) (s : State) : Prop :=
  ∃ t r, runSteps (k + 1) s = .next t ∧ t.ph ≠ .busy ∧ t.sent = s.sent ++ [r] ∧ responseTo s.cmdr = some r ∧
    ∀ j, j ≤ k → ∃ u, runSteps j s = .next u ∧ u.ph = .busy ∧ u.sent = s.sent

theorem answeredAfter_zero {s : State} (hph : s.ph = .busy)
    (h : IsAnswerTo s.cmdr { s with inbox := dropTick s.inbox } (step s)) : AnsweredAfter 0 s := by
  obtain ⟨t, r, hstep, htph, hsent, hr⟩ := h.sends
  refine ⟨t, r, (runSteps_one s).trans hstep, htph, hsent, hr, fun j hj => ?_⟩
  obtain rfl : j = 0 := by omega
  exact ⟨s, rfl, hph, rfl⟩

/-- A step that keeps the command and sends nothing puts the answer off by one. -/
theorem AnsweredAfter.succ {k : Nat} {s u : State} (hph : s.ph = .busy) (hstep : step s = .next u)
    (hcmdr : u.cmdr = s.cmdr) (hsent : u.sent = s.sent) (h : AnsweredAfter k u) : AnsweredAfter (k + 1) s := by
  obtain ⟨t, r, hrun, htph, htsent, hr, hbusy⟩ := h
  rw [hcmdr] at hr
  rw [hsent] at htsent hbusy
  refine ⟨t, r, (runSteps_succ hstep).trans hrun, htph, htsent, hr, fun j hj => ?_⟩
  cases j with
  | zero => exact ⟨s, rfl, hph, rfl⟩
  | succ j =>
    obtain ⟨v, hv, hvbusy⟩ := hbusy j (by omega)
    exact ⟨v, (runSteps_succ hstep).trans hv, hvbusy⟩

/-- By induction on the iterations that `P` leaves to do before it is 62: a busy block answers, or does one of them. -/
theorem State.Inv.answeredAfter {n : Nat} {s : State} (h : s.Inv) (hph : s.ph = .busy)
    (hin : HostEvent.reset ∉ s.inbox) (hn : s.drv.run = true → 62 ≤ s.drv.p.toNat + n) :
    ∃ k ≤ n, AnsweredAfter k s := by
  induction n generalizing s with
  | zero =>
    rcases h.step_busy_cases hph (mt List.mem_of_mem_head? hin) with ⟨hrun, he, -⟩ | hans
    · obtain ⟨ad, hdrv⟩ := h.drvHolds hrun
      have := hdrv.p_le he
      have := hn hrun
      omega
    · exact ⟨0, le_rfl, answeredAfter_zero hph hans⟩
  | succ n ih =>
    rcases h.step_busy_cases hph (mt List.mem_of_mem_head? hin) with ⟨hrun, he, hstep⟩ | hans
    · obtain ⟨ad, hdrv⟩ := h.drvHolds hrun
      have hp := hdrv.iterate_p he
      have := hn hrun
      obtain ⟨k, hk, hans⟩ := ih (everyStepKeepsTheInvariant _ _ h hstep) hph
        (fun hmem => hin (dropTick_subset _ hmem)) (fun _ => by rw [hp]; omega)
      exact ⟨k + 1, by omega, hans.succ hph hstep rfl rfl⟩
    · exact ⟨0, by omega, answeredAfter_zero hph hans⟩

/-- Settles O59: `P` is at least 31 while a derivation runs. -/
theorem commandInProgressIsAnswered : Obligations.CommandInProgressIsAnswered := by
  intro s h hph hin
  have hn : s.drv.run = true → 62 ≤ s.drv.p.toNat + 31 := by
    intro hrun
    obtain ⟨ad, hdrv⟩ := h.drvHolds hrun
    have := hdrv.pLow
    omega
  obtain ⟨k, hk, t, r, hans⟩ := h.answeredAfter hph hin hn
  exact ⟨k, t, r, hk, hans⟩

end Sys2Proof.Machine
end
